-- ==== Sys2Proof/Word.lean ====
section
/-! DEFINITION. The word types of the CSC 364 core: widths only.
Every bit-field and byte-order helper stands in Decode.lean or under Machine/. -/

namespace Sys2Proof

/-- A register value, ROM word, ROM address or RAM address: 16 bits, unsigned (R10, R20). -/
abbrev Word := BitVec 16

/-- A RAM or screen byte: 8 bits, unsigned (R10, R53, R55). -/
abbrev Byte := BitVec 8

/-- A 4-bit field of an instruction word (R9, R91). -/
abbrev Nibble := BitVec 4

/-- The index of a register, 0 to 15 (R20). -/
abbrev RegIdx := Fin 16

/-- A memory of `w`-bit locations, listed by address; the canonical form is `sparseWf`. -/
abbrev Sparse (w : Nat) := List (Nat × BitVec w)

end Sys2Proof
end

