-- ==== Sys2Proof/Syntax.lean ====
section
/-! DEFINITION. The sixteen instructions (R96), one constructor for each row of spec/opcode_table.json,
and the sixteen operation names on their own. -/

namespace Sys2Proof

/-- The operation that the `op` field of a word selects (R96). -/
inductive Op where
  | mov | not | and | or | add | sub | addi | subi
  | set | seth | inciz | decin | movez | movex | movep | moven
  deriving DecidableEq, Repr

/-- A decoded instruction.  Registers are indices, literals are the bits of their field.
The ignored field `b` of `mov` and `not` is no part of the instruction: words that differ only there
are one instruction (R94, R97). -/
inductive Instr where
  /-- `x[dest] <- x[a]` (R150). -/
  | mov (dest a : RegIdx)
  /-- `x[dest] <- ~x[a]` (R151). -/
  | not (dest a : RegIdx)
  /-- `x[dest] <- x[a] & x[b]` (R152). -/
  | and (dest a b : RegIdx)
  /-- `x[dest] <- x[a] | x[b]` (R153). -/
  | or (dest a b : RegIdx)
  /-- `x[dest] <- x[a] + x[b]` (R154). -/
  | add (dest a b : RegIdx)
  /-- `x[dest] <- x[a] - x[b]` (R155). -/
  | sub (dest a b : RegIdx)
  /-- `x[dest] <- x[a] + zext(imm)` (R156). -/
  | addi (dest a : RegIdx) (imm : Nibble)
  /-- `x[dest] <- x[a] - zext(imm)` (R157). -/
  | subi (dest a : RegIdx) (imm : Nibble)
  /-- `x[dest] <- zext(imm8)` (R170). -/
  | set (dest : RegIdx) (imm8 : Byte)
  /-- `x[dest][15:8] <- imm8` (R171). -/
  | seth (dest : RegIdx) (imm8 : Byte)
  /-- `if x[b] == 0 then x[dest] <- x[dest] + zext(imm)` (R180). -/
  | inciz (dest : RegIdx) (imm : Nibble) (b : RegIdx)
  /-- `if x[b][15] == 1 then x[dest] <- x[dest] - zext(imm)` (R181). -/
  | decin (dest : RegIdx) (imm : Nibble) (b : RegIdx)
  /-- `if x[b] == 0 then x[dest] <- x[a]` (R182). -/
  | movez (dest a b : RegIdx)
  /-- `if x[b] != 0 then x[dest] <- x[a]` (R183). -/
  | movex (dest a b : RegIdx)
  /-- `if x[b][15] == 0 then x[dest] <- x[a]` (R184). -/
  | movep (dest a b : RegIdx)
  /-- `if x[b][15] == 1 then x[dest] <- x[a]` (R185). -/
  | moven (dest a b : RegIdx)
  deriving DecidableEq, Repr

/-- The operation of an instruction. -/
def Instr.op : Instr → Op
  | .mov _ _ => .mov
  | .not _ _ => .not
  | .and _ _ _ => .and
  | .or _ _ _ => .or
  | .add _ _ _ => .add
  | .sub _ _ _ => .sub
  | .addi _ _ _ => .addi
  | .subi _ _ _ => .subi
  | .set _ _ => .set
  | .seth _ _ => .seth
  | .inciz _ _ _ => .inciz
  | .decin _ _ _ => .decin
  | .movez _ _ _ => .movez
  | .movex _ _ _ => .movex
  | .movep _ _ _ => .movep
  | .moven _ _ _ => .moven

/-- The destination register: every instruction has exactly one (R94, R134). -/
def Instr.dest : Instr → RegIdx
  | .mov d _ => d
  | .not d _ => d
  | .and d _ _ => d
  | .or d _ _ => d
  | .add d _ _ => d
  | .sub d _ _ => d
  | .addi d _ _ => d
  | .subi d _ _ => d
  | .set d _ => d
  | .seth d _ => d
  | .inciz d _ _ => d
  | .decin d _ _ => d
  | .movez d _ _ => d
  | .movex d _ _ => d
  | .movep d _ _ => d
  | .moven d _ _ => d

end Sys2Proof
end

