-- ==== Sys2Proof/WellFormed.lean ====
section
/-! DEFINITION. Which instruction terms an encoding can hold.

R92 gives the one condition: "every field is a 4-bit value with no reserved patterns".  On `Instr` the
types carry it (a register is a `Fin 16`, a literal a `BitVec`), so the check accepts every term.  Where
fields are still plain numbers (`RawWord`), the check has four parts, one a field. -/

namespace Sys2Proof

/-- The four fields of an instruction word as plain numbers, before anything bounds them. -/
structure RawWord where
  op : Nat
  dest : Nat
  a : Nat
  b : Nat
  deriving DecidableEq, Repr

/-- Each field is in 0..15 (R92). -/
def RawWord.wellFormed (r : RawWord) : Bool :=
  decide (r.op < 16) && decide (r.dest < 16) && decide (r.a < 16) && decide (r.b < 16)

/-- A register operand fits its 4-bit field (R93). -/
def regFits (r : RegIdx) : Bool := decide (r.val < 16)

/-- A 4-bit literal fits one field (R95). -/
def literalFits (v : Nibble) : Bool := decide (v.toNat < 16)

/-- An 8-bit literal fits the two fields `a` and `b` (R95). -/
def literal8Fits (v : Byte) : Bool := decide (v.toNat < 256)

/-- Every operand of the instruction fits the field that R94 gives it. -/
def Instr.wellFormed : Instr → Bool
  | .mov d a => regFits d && regFits a
  | .not d a => regFits d && regFits a
  | .and d a b => regFits d && regFits a && regFits b
  | .or d a b => regFits d && regFits a && regFits b
  | .add d a b => regFits d && regFits a && regFits b
  | .sub d a b => regFits d && regFits a && regFits b
  | .addi d a k => regFits d && regFits a && literalFits k
  | .subi d a k => regFits d && regFits a && literalFits k
  | .set d k => regFits d && literal8Fits k
  | .seth d k => regFits d && literal8Fits k
  | .inciz d k b => regFits d && literalFits k && regFits b
  | .decin d k b => regFits d && literalFits k && regFits b
  | .movez d a b => regFits d && regFits a && regFits b
  | .movex d a b => regFits d && regFits a && regFits b
  | .movep d a b => regFits d && regFits a && regFits b
  | .moven d a b => regFits d && regFits a && regFits b

end Sys2Proof
end

