-- ==== Sys2Proof/Decode.lean ====
section
/-! DEFINITION. Decoding and encoding of instruction words (30_encoding.md).

An instruction is one 16-bit word of four nibbles (R90, R91).  Every word decodes (R93); the only thing
the byte decoder refuses, by name, is a list too short to hold a word. -/

namespace Sys2Proof

/-! ### The four fields -/

/-- The four 4-bit fields of an instruction word, most significant first (R91). -/
structure Fields where
  op : Nibble
  dest : Nibble
  a : Nibble
  b : Nibble
  deriving DecidableEq, Repr

/-- `op = W[15:12]`, `dest = W[11:8]`, `a = W[7:4]`, `b = W[3:0]` (R91). -/
def splitWord (w : Word) : Fields where
  op := w.extractLsb' 12 4
  dest := w.extractLsb' 8 4
  a := w.extractLsb' 4 4
  b := w.extractLsb' 0 4

/-- `W = (op << 12) | (dest << 8) | (a << 4) | b` (R92). -/
def joinWord (f : Fields) : Word :=
  (f.op.setWidth 16 <<< 12) ||| (f.dest.setWidth 16 <<< 8) ||| (f.a.setWidth 16 <<< 4) ||| f.b.setWidth 16

/-- The register a field names (R93: always one of the 16). -/
def regOfNibble (n : Nibble) : RegIdx := n.toFin

/-- The field that names a register. -/
def nibbleOfReg (r : RegIdx) : Nibble := BitVec.ofFin r

/-- `imm8 = (a << 4) | b` (R95). -/
def imm8OfNibbles (a b : Nibble) : Byte := (a.setWidth 8 <<< 4) ||| b.setWidth 8

/-- The high nibble of `imm8`, which is field `a` (R94, R95). -/
def imm8High (v : Byte) : Nibble := v.extractLsb' 4 4

/-- The low nibble of `imm8`, which is field `b` (R94, R95). -/
def imm8Low (v : Byte) : Nibble := v.extractLsb' 0 4

/-! ### The opcode map -/

/-- The opcode map: row `n` is the operation of `op = n` (R96). -/
def opTable : Vector Op 16 :=
  #v[.mov, .not, .and, .or, .add, .sub, .addi, .subi,
     .set, .seth, .inciz, .decin, .movez, .movex, .movep, .moven]

/-- The operation of an `op` field. -/
def opOfNibble (n : Nibble) : Op := opTable[n.toFin]

/-- The `op` field of an operation (R96). -/
def opCode : Op → Nibble
  | .mov => 0
  | .not => 1
  | .and => 2
  | .or => 3
  | .add => 4
  | .sub => 5
  | .addi => 6
  | .subi => 7
  | .set => 8
  | .seth => 9
  | .inciz => 10
  | .decin => 11
  | .movez => 12
  | .movex => 13
  | .movep => 14
  | .moven => 15

/-! ### Decoding -/

/-- The instruction of four fields, each operation reading them by its format (R94). -/
def instrOfFields (f : Fields) : Instr :=
  match opOfNibble f.op with
  | .mov => .mov (regOfNibble f.dest) (regOfNibble f.a)
  | .not => .not (regOfNibble f.dest) (regOfNibble f.a)
  | .and => .and (regOfNibble f.dest) (regOfNibble f.a) (regOfNibble f.b)
  | .or => .or (regOfNibble f.dest) (regOfNibble f.a) (regOfNibble f.b)
  | .add => .add (regOfNibble f.dest) (regOfNibble f.a) (regOfNibble f.b)
  | .sub => .sub (regOfNibble f.dest) (regOfNibble f.a) (regOfNibble f.b)
  | .addi => .addi (regOfNibble f.dest) (regOfNibble f.a) f.b
  | .subi => .subi (regOfNibble f.dest) (regOfNibble f.a) f.b
  | .set => .set (regOfNibble f.dest) (imm8OfNibbles f.a f.b)
  | .seth => .seth (regOfNibble f.dest) (imm8OfNibbles f.a f.b)
  | .inciz => .inciz (regOfNibble f.dest) f.a (regOfNibble f.b)
  | .decin => .decin (regOfNibble f.dest) f.a (regOfNibble f.b)
  | .movez => .movez (regOfNibble f.dest) (regOfNibble f.a) (regOfNibble f.b)
  | .movex => .movex (regOfNibble f.dest) (regOfNibble f.a) (regOfNibble f.b)
  | .movep => .movep (regOfNibble f.dest) (regOfNibble f.a) (regOfNibble f.b)
  | .moven => .moven (regOfNibble f.dest) (regOfNibble f.a) (regOfNibble f.b)

/-- Decoding of one word.  It never fails (R93). -/
def decodeWord (w : Word) : Instr := instrOfFields (splitWord w)

/-- The word carried by two bytes: the first is the high byte, `(data[0] << 8) | data[1]` (R67). -/
def wordOfBytes (b0 b1 : Byte) : Word := (b0.setWidth 16 <<< 8) ||| b1.setWidth 16

/-- The two bytes of a word, high byte first (R67, R108). -/
def bytesOfWord (w : Word) : List Byte := [w.extractLsb' 8 8, w.extractLsb' 0 8]

/-- Why a list of bytes holds no instruction. -/
inductive DecodeError where
  /-- Fewer than the two bytes of a word are there (R90); `present` says how many. -/
  | truncated (present : Nat)
  deriving DecidableEq, Repr

/-- Reads one instruction from a list of bytes in the byte order of the image (R67), and answers what is
left.  Total: any two bytes decode, and a shorter list is refused by name. -/
def decodeBytes : List Byte → Except DecodeError (Instr × List Byte)
  | b0 :: b1 :: rest => .ok (decodeWord (wordOfBytes b0 b1), rest)
  | [_] => .error (.truncated 1)
  | [] => .error (.truncated 0)

/-- The instruction that the decoder reads from a table word of `nbits` bits, bit 0 its least significant
bit.  Words are 16 bits (R90), so a wider one is no instruction of this core.  DESIGN CHOICE: the bits that a
narrower one does not give are 0.  See log entry 14. -/
def decodeTableWord (nbits w : Nat) : Option Instr :=
  if nbits ≤ 16 then
    match decodeBytes (bytesOfWord (BitVec.ofNat 16 (w % 2 ^ nbits))) with
    | .ok (i, _) => some i
    | .error _ => none
  else none

/-! ### Encoding -/

/-- The fields of an instruction, by its format (R94).  The ignored field of `mov` and `not` is 0, as the
assembler emits it (R108). -/
def fieldsOfInstr : Instr → Fields
  | .mov d a => ⟨opCode .mov, nibbleOfReg d, nibbleOfReg a, 0⟩
  | .not d a => ⟨opCode .not, nibbleOfReg d, nibbleOfReg a, 0⟩
  | .and d a b => ⟨opCode .and, nibbleOfReg d, nibbleOfReg a, nibbleOfReg b⟩
  | .or d a b => ⟨opCode .or, nibbleOfReg d, nibbleOfReg a, nibbleOfReg b⟩
  | .add d a b => ⟨opCode .add, nibbleOfReg d, nibbleOfReg a, nibbleOfReg b⟩
  | .sub d a b => ⟨opCode .sub, nibbleOfReg d, nibbleOfReg a, nibbleOfReg b⟩
  | .addi d a k => ⟨opCode .addi, nibbleOfReg d, nibbleOfReg a, k⟩
  | .subi d a k => ⟨opCode .subi, nibbleOfReg d, nibbleOfReg a, k⟩
  | .set d k => ⟨opCode .set, nibbleOfReg d, imm8High k, imm8Low k⟩
  | .seth d k => ⟨opCode .seth, nibbleOfReg d, imm8High k, imm8Low k⟩
  | .inciz d k b => ⟨opCode .inciz, nibbleOfReg d, k, nibbleOfReg b⟩
  | .decin d k b => ⟨opCode .decin, nibbleOfReg d, k, nibbleOfReg b⟩
  | .movez d a b => ⟨opCode .movez, nibbleOfReg d, nibbleOfReg a, nibbleOfReg b⟩
  | .movex d a b => ⟨opCode .movex, nibbleOfReg d, nibbleOfReg a, nibbleOfReg b⟩
  | .movep d a b => ⟨opCode .movep, nibbleOfReg d, nibbleOfReg a, nibbleOfReg b⟩
  | .moven d a b => ⟨opCode .moven, nibbleOfReg d, nibbleOfReg a, nibbleOfReg b⟩

/-- The word of an instruction (R92). -/
def encode (i : Instr) : Word := joinWord (fieldsOfInstr i)

/-- The two bytes of an instruction, in image order (R108). -/
def encodeBytes (i : Instr) : List Byte := bytesOfWord (encode i)

/-- The word of four numbers, refused unless each is in 0..15 (R92). -/
def encodeRaw (r : RawWord) : Option Word :=
  if r.wellFormed then
    some (joinWord ⟨BitVec.ofNat 4 r.op, BitVec.ofNat 4 r.dest, BitVec.ofNat 4 r.a, BitVec.ofNat 4 r.b⟩)
  else none

end Sys2Proof
end

