-- ==== Sys2Proof/Config.lean ====
section
/-! DEFINITION. What the spec leaves to the implementation.
The core itself has no configurable parameter (R8); the one open parameter of the spec is the host's
`romWindow` (92_eei_decisions.md D19).  The fixed numbers of R8 stand in Machine/Params.lean. -/

namespace Sys2Proof

/-- The twelve ROM addresses that a snapshot shows for a PC: "12 words centered on PC" has no single
reading, so the spec takes the function as a parameter (R215, D19, O8).  It has no body here: a claim
holds whatever the twelve addresses are.  See log entry 8. -/
opaque Config.romWindow : Word → Vector Word 12

end Sys2Proof
end

