-- ==== Sys2Proof/Machine/State.lean ====
section
/-! DEFINITION. The state of the core as plain data (10_state.md rule R40), the reasons it can stop, and
the state after reset (R41). -/

namespace Sys2Proof.Machine

/-- The causes of a fault (R203).  Safe: the faulting cycle is discarded whole, and the core takes no
further cycle.  A fault is recorded in the status (`Status.faulted`, R202); `step` and `exec` themselves
always answer a next state. -/
inductive Fault where
  /-- Raised by output emission when it would write the screen at an index of 16 or more (R63, R202).
  `pc` is the address of the instruction, `x14` the value of register 14 after it executed.  Safe: no
  screen, RAM or register value is invented for the write that has no location. -/
  | screenWriteOutOfRange (pc x14 : Word)
  deriving DecidableEq, Repr

/-- Why an instruction would have no meaning. -/
inductive Refusal where
  /-- Raised by an arm of `exec` that has no meaning yet; no arm is left so.  Safe: it only stops. -/
  | notModelled (mnemonic : String)
  deriving DecidableEq, Repr

/-- An error that the host's notification callback reports (R214).  The spec gives it no form, so it is a
text that nothing in the core reads.  See log entry 4. -/
structure HostError where
  text : String
  deriving DecidableEq, Repr

/-- Why the host stopped the core (R203). -/
inductive StopReason where
  /-- The host asked for a stop (R213). -/
  | hostStop
  /-- The notification after a completed cycle reported an error (R214). -/
  | notifyError (error : HostError)
  deriving DecidableEq, Repr

/-- The run status (R37, R203).  Only `running` takes cycles. -/
inductive Status where
  | ready
  | running
  | halted
  | faulted (fault : Fault)
  | stopped (reason : StopReason)
  deriving DecidableEq, Repr

/-- The state: exactly the tuple of R40.  What the host has asked for is no part of it; it stands beside the
state in a `Session` (Machine/HostInterface.lean). -/
structure State where
  /-- The register file; `x[15]` is the PC (R20, R30). -/
  x : Vector Word 16
  /-- ROM words by word address 0x0000..0xFFFE; an unlisted address holds 0x0000 (R51, R233). -/
  rom : Sparse 16
  /-- RAM bytes by address 0x0000..0xFFFF; an unlisted address holds 0x00 (R53, R41). -/
  ram : List Host.Cell
  /-- The screen bytes (R55). -/
  screen : Vector Byte 16
  /-- The instruction counter (R34). -/
  clock : BitVec 64
  /-- The run status (R37). -/
  status : Status
  deriving DecidableEq, Repr

/-- The core as created (R41, R230): everything zero, and `ready`, as with an image of no words loaded.
See log entry 1. -/
def State.reset : State where
  x := Vector.replicate 16 0
  rom := []
  ram := []
  screen := Vector.replicate 16 0
  clock := 0
  status := .ready

end Sys2Proof.Machine
end

