-- ==== Sys2Proof/Machine/Params.lean ====
section
/-! DEFINITION. The fixed parameters of the block (00_scope.md rule R8) and the register numbers with a
role (R22), each named once. -/

namespace Sys2Proof.Machine

/-- `HALT_PC`: the PC value that ends a run and names no ROM word (R8, R31, R137). -/
def haltPc : Word := 0xFFFF

/-- The entry point (R231). -/
def entryPc : Word := 0x0000

/-- `ROM_WORDS`: addresses 0x0000..0xFFFE (R8, R51). -/
def romWords : Nat := 65535

/-- `RAM_BYTES` (R8, R53). -/
def ramBytes : Nat := 65536

/-- `SCREEN_READ_MASK` (R8, R60). -/
def screenReadMask : Word := 0x000F

/-- `SCREEN_WRITE_MASK` (R8, R61). -/
def screenWriteMask : Word := 0x00FF

/-- The default step-speed (R8, R261). -/
def defaultSpeed : Nat := 5

/-- Register 6, "input" (R22, R23). -/
def inReg : RegIdx := 6

/-- Register 13, "output-1", the I/O control register (R22, R24). -/
def out0Reg : RegIdx := 13

/-- Register 14, "output-2", the I/O address (R22, R29). -/
def out1Reg : RegIdx := 14

/-- Register 15, the program counter (R22, R30). -/
def pcReg : RegIdx := 15

end Sys2Proof.Machine
end

