-- ==== Sys2Proof/Machine/Bits.lean ====
section
/-! DEFINITION. Bit fields of words and bytes (00_scope.md rules R9 and R11). -/

namespace Sys2Proof.Machine

/-- `v[7:0]` (R9). -/
def lowByte (v : Word) : Byte := v.extractLsb' 0 8

/-- `v[15:8]` (R9). -/
def highByte (v : Word) : Byte := v.extractLsb' 8 8

/-- `v[15]` (R9). -/
def bit15 (v : Word) : Bool := v.getLsbD 15

/-- `v[14]` (R9). -/
def bit14 (v : Word) : Bool := v.getLsbD 14

/-- `(v & 0xFF00) | zext_16(b)`: `v` with its low byte replaced (R60). -/
def withLowByte (v : Word) (b : Byte) : Word := (v &&& 0xFF00) ||| b.setWidth 16

/-- `(v & 0x00FF) | ((zext_16(b) << 8) & 0xFF00)`: `v` with its high byte replaced (R171). -/
def withHighByte (v : Word) (b : Byte) : Word := (v &&& 0x00FF) ||| ((b.setWidth 16 <<< 8) &&& 0xFF00)

end Sys2Proof.Machine
end

