-- ==== Sys2Proof/Machine/Memory.lean ====
section
/-! DEFINITION. The three memories (20_memory.md rules R50 to R57): ROM and RAM as sparse lists in one
canonical form, the screen as sixteen bytes. -/

namespace Sys2Proof.Machine

/-! ### A sparse memory -/

/-- What an address that no entry lists holds: every ROM word and RAM byte is 0 at reset (R41). -/
def unlisted (w : Nat) : BitVec w := 0

/-- The content of address `a`. -/
def sparseRead {w : Nat} : Sparse w → Nat → BitVec w
  | [], _ => unlisted w
  | (k, v) :: rest, a => if k = a then v else sparseRead rest a

/-- The memory with `v` at address `a`: the entry is placed in address order, and is left out when `v` is
what an unlisted address holds. -/
def sparseWrite {w : Nat} : Sparse w → Nat → BitVec w → Sparse w
  | [], a, v => if v = unlisted w then [] else [(a, v)]
  | (k, u) :: rest, a, v =>
    if a < k then
      if v = unlisted w then (k, u) :: rest else (a, v) :: (k, u) :: rest
    else if a = k then
      if v = unlisted w then rest else (a, v) :: rest
    else (k, u) :: sparseWrite rest a v

/-- Every address of the list lies at or above `least`, addresses rise strictly, and no entry holds what an
unlisted address holds. -/
def sparseRising {w : Nat} (least : Nat) : Sparse w → Bool
  | [] => true
  | (k, v) :: rest => decide (least ≤ k) && !decide (v = unlisted w) && sparseRising (k + 1) rest

/-- The canonical form of a memory of `size` locations. -/
def sparseWf {w : Nat} (size : Nat) (m : Sparse w) : Bool :=
  sparseRising 0 m && m.all fun cell => decide (cell.1 < size)

/-- RAM in canonical form: 65 536 bytes (R53). -/
def Memory.wf (m : List Host.Cell) : Bool := sparseWf ramBytes m

/-- ROM in canonical form: 65 535 words (R51). -/
def romWf (m : Sparse 16) : Bool := sparseWf romWords m

/-! ### The accesses of the core (R12) -/

/-- `RomRead(a)`, for `a` in 0x0000..0xFFFE (R12, R51).  0xFFFF is no ROM address; no cycle fetches there
(R132, R137), and `romWord?` says so where the host asks. -/
def romRead (s : State) (a : Word) : Word := sparseRead s.rom a.toNat

/-- The ROM word at an address, or nothing at 0xFFFF, which names no word (R31, R51). -/
def romWord? (s : State) (a : Word) : Option Word :=
  if a.toNat < romWords then some (romRead s a) else none

/-- `MemRead(a, 1)` (R12, R53). -/
def ramRead (s : State) (a : Word) : Byte := sparseRead s.ram a.toNat

/-- `MemWrite(a, 1, v)` (R12, R53). -/
def ramWrite (s : State) (a : Word) (v : Byte) : State := { s with ram := sparseWrite s.ram a.toNat v }

/-- `ScreenRead(i)` (R12, R55). -/
def screenRead (s : State) (i : Fin 16) : Byte := s.screen[i]

/-- `ScreenWrite(i, v)` (R12, R55). -/
def screenWrite (s : State) (i : Fin 16) (v : Byte) : State := { s with screen := s.screen.set i v }

end Sys2Proof.Machine
end

