-- ==== Sys2Proof/Machine/Ops.lean ====
section
/-! DEFINITION. The shared operations of a cycle (40_cycle.md, and the side-channel of 20_memory.md):
registers, input sampling, output emission, the fault, the PC update, the counter, and the whole cycle
around one operation. -/

namespace Sys2Proof.Machine

/-! ### Registers -/

/-- `x[r]` (R12).  No register is hardwired (R21). -/
def State.reg (s : State) (r : RegIdx) : Word := s.x[r]

/-- `x[r] <- v` (R12, R21). -/
def State.setReg (s : State) (r : RegIdx) (v : Word) : State := { s with x := s.x.set r v }

/-- The program counter is register 15 itself (R30). -/
def State.pc (s : State) : Word := s.reg pcReg

/-! ### Step 1: input sampling -/

/-- The screen index that sampling reads: `x14 & 0x000F`, always in 0..15 (R26, R60). -/
def sampleIndex (x14 : Word) : Fin 16 := Fin.ofNat 16 (x14 &&& screenReadMask).toNat

/-- The byte that sampling reads, if it runs: it runs when bit 15 of register 13 is clear, and bit 14
chooses the channel (R25, R26, R60). -/
def sampledByte (s : State) : Option Byte :=
  if bit15 (s.reg out0Reg) then none
  else if bit14 (s.reg out0Reg) then some (screenRead s (sampleIndex (s.reg out1Reg)))
  else some (ramRead s (s.reg out1Reg))

/-- Step 1: the byte goes to the low half of register 6, whose high half is kept (R23, R60). -/
def inputSample (s : State) : State :=
  match sampledByte s with
  | some byte => s.setReg inReg (withLowByte (s.reg inReg) byte)
  | none => s

/-! ### Step 2: fetch and write-back -/

/-- The fetch, after sampling: `W <- RomRead(x[15])` (R130, R132). -/
def fetchWord (s : State) : Word := romRead (inputSample s) (inputSample s).pc

/-- The write-back of an operation: `some v` writes `x[dest]` and is `wrote = true`, `none` writes nothing
and is `wrote = false` (R36, R133). -/
def writeBack (dest : RegIdx) (result : Option Word) (s : State) : State :=
  match result with
  | some v => s.setReg dest v
  | none => s

/-! ### Step 3: output emission -/

/-- Where emission writes. -/
inductive EmitTarget where
  /-- Bit 15 of register 13 is clear: nothing is written. -/
  | off
  /-- A RAM byte. -/
  | ram (a : Word)
  /-- A screen byte. -/
  | screen (i : Fin 16)
  /-- A screen index of 16 or more, which names no location (R63). -/
  | outOfRange
  deriving DecidableEq, Repr

/-- The location that emission writes, from registers 13 and 14 as the instruction left them: RAM at the
whole of `x14`, or the screen at `x14 & 0x00FF` (R25, R26, R61, R63). -/
def emitTarget (x13 x14 : Word) : EmitTarget :=
  if bit15 x13 then
    if bit14 x13 then
      if h : (x14 &&& screenWriteMask).toNat < 16 then .screen ⟨(x14 &&& screenWriteMask).toNat, h⟩
      else .outOfRange
    else .ram x14
  else .off

/-- Where emission writes in a state. -/
def State.emitTarget (s : State) : EmitTarget :=
  Sys2Proof.Machine.emitTarget (s.reg out0Reg) (s.reg out1Reg)

/-- Step 3: writes `x[13][7:0]` to the location, or raises the fault with the address that this cycle
fetched from and the value of register 14 (R28, R61, R63). -/
def outputEmit (fetchPc : Word) (s : State) : Except Fault State :=
  match s.emitTarget with
  | .off => .ok s
  | .ram a => .ok (ramWrite s a (lowByte (s.reg out0Reg)))
  | .screen i => .ok (screenWrite s i (lowByte (s.reg out0Reg)))
  | .outOfRange => .error (.screenWriteOutOfRange fetchPc (s.reg out1Reg))

/-! ### The fault -/

/-- Taking the one exception of the core (R202, R205): `s` is the state at the start of the faulting cycle,
which is discarded, so registers, RAM, screen and counter stay as `s` has them (R139) and only the status
records the cause.  Nothing is saved in a register and no handler is entered (R205).  There is no return
from it: the status is an end state (R206). -/
def takeFault (f : Fault) (s : State) : State := { s with status := .faulted f }

/-! ### Steps 4 and 5: the PC and the counter -/

/-- Step 4: the PC moves on by one word, unless the instruction wrote register 15 (R136). -/
def pcUpdate (dest : RegIdx) (wrote : Bool) (s : State) : State :=
  if wrote && decide (dest = pcReg) then s else s.setReg pcReg (s.pc + 1)

/-- Step 5: the counter counts the cycle, modulo 2^64 (R35, R138).  The notification of the host changes no state
of the core (R138); `Session.step` records it. -/
def countCycle (s : State) : State :=
  { s with clock := s.clock + 1 }

/-! ### The whole cycle -/

/-- One cycle of an instruction with destination `dest` and operation `op`, on the state at the start of the
cycle (R130).  The operation reads the state after sampling (R14, R131) and answers the value it writes, if
it writes (R133).  The cycle completes all its steps or is discarded (R139). -/
def runCycle (dest : RegIdx) (op : State → Option Word) (s : State) : State :=
  let sampled := inputSample s
  let result := op sampled
  match outputEmit sampled.pc (writeBack dest result sampled) with
  | .ok emitted => countCycle (pcUpdate dest result.isSome emitted)
  | .error f => takeFault f s

end Sys2Proof.Machine
end

