-- ==== Sys2Proof/Machine/Boundary.lean ====
section
/-! DEFINITION. What the core does at a cycle boundary of its own accord: wait, halt, or take a cycle (R37, R137);
and the start and the end of a run (R204, R216). -/

namespace Sys2Proof.Machine

/-- The decision at a cycle boundary. -/
inductive Boundary where
  /-- Nothing happens: an end state, or a core not started (R37). -/
  | wait
  /-- The PC is 0xFFFF (R137). -/
  | halt
  /-- The next cycle begins (R130). -/
  | cycle
  deriving DecidableEq, Repr

/-- The decision.  Only a running core takes cycles (R37), and it halts at a PC of 0xFFFF (R137; log entry 11). -/
def boundary (s : State) : Boundary :=
  match s.status with
  | .ready => .wait
  | .running => if s.pc = haltPc then .halt else .cycle
  | .halted => .wait
  | .faulted _ => .wait
  | .stopped _ => .wait

/-- A start moves the status from `ready` to `running`; in any other status it does nothing (R216). -/
def startCore (s : State) : State :=
  match s.status with
  | .ready => { s with status := .running }
  | .running => s
  | .halted => s
  | .faulted _ => s
  | .stopped _ => s

/-- The run ends with a status; every other piece of state is kept (R204, R220). -/
def endRun (status : Status) (s : State) : State := { s with status := status }

/-- `s` with `w` as the word of the next fetch, and the next step a cycle: the word stands in the ROM at the PC, and
the core is running.  At a PC of 0xFFFF, where no word is ever fetched (R137), the PC is put at the entry point.  See
log entry 5. -/
def State.placeWord (s : State) (w : Word) : State :=
  let t := if s.pc = haltPc then s.setReg pcReg entryPc else s
  { t with rom := sparseWrite t.rom t.pc.toNat w, status := .running }

end Sys2Proof.Machine
end

