-- ==== Sys2Proof/Machine/Operands.lean ====
section
/-! DEFINITION. The operand forms of R94 and R95: a register read in the state after sampling, a 4-bit
literal, an 8-bit literal. -/

namespace Sys2Proof.Machine

/-- A source register, read before the instruction's write (R14); register 15 reads the instruction's own
address (R140). -/
def regOperand (t : State) (r : RegIdx) : Word := t.reg r

/-- `zext_16` of a 4-bit literal, 0..15 (R95: never sign-extended). -/
def literalOperand (k : Nibble) : Word := k.setWidth 16

/-- `zext_16` of an 8-bit literal, 0..255 (R95). -/
def literal8Operand (k : Byte) : Word := k.setWidth 16

end Sys2Proof.Machine
end

