-- ==== Sys2Proof/Machine/Flags.lean ====
section
/-! DEFINITION. The conditions.  The core has no flags (R32): a conditional operation tests a register
itself (43_conditional.md rule R186). -/

namespace Sys2Proof.Machine

/-- "zero": `v == 0x0000` (R186). -/
def isZero (v : Word) : Bool := decide (v = 0)

/-- "negative": bit 15 is 1 (R10, R186). -/
def isNegative (v : Word) : Bool := decide (v &&& 0x8000 ≠ 0)

/-- The result of a conditional operation: the value when the test holds, no write when it fails (R186). -/
def writeIf (test : Bool) (v : Word) : Option Word := if test then some v else none

end Sys2Proof.Machine
end

