-- ==== Sys2Proof/Machine/Conditional.lean ====
section
/-! DEFINITION. The six conditional operations, ops 10 to 15 (43_conditional.md).  Each tests `x[b]` in the
state after sampling, before it writes (R186). -/

namespace Sys2Proof.Machine

/-- `inciz`: `x[dest] + zext_16(a)` if `x[b] == 0` (R180). -/
def incizValue (dest : RegIdx) (k : Nibble) (b : RegIdx) (t : State) : Option Word :=
  writeIf (isZero (regOperand t b)) (regOperand t dest + literalOperand k)

/-- `decin`: `x[dest] - zext_16(a)` if `x[b]` is negative (R181). -/
def decinValue (dest : RegIdx) (k : Nibble) (b : RegIdx) (t : State) : Option Word :=
  writeIf (isNegative (regOperand t b)) (regOperand t dest - literalOperand k)

/-- `movez`: `x[a]` if `x[b] == 0` (R182). -/
def movezValue (a b : RegIdx) (t : State) : Option Word :=
  writeIf (isZero (regOperand t b)) (regOperand t a)

/-- `movex`: `x[a]` if `x[b] != 0` (R183). -/
def movexValue (a b : RegIdx) (t : State) : Option Word :=
  writeIf (!isZero (regOperand t b)) (regOperand t a)

/-- `movep`: `x[a]` if `x[b]` is not negative (R184). -/
def movepValue (a b : RegIdx) (t : State) : Option Word :=
  writeIf (!isNegative (regOperand t b)) (regOperand t a)

/-- `moven`: `x[a]` if `x[b]` is negative (R185). -/
def movenValue (a b : RegIdx) (t : State) : Option Word :=
  writeIf (isNegative (regOperand t b)) (regOperand t a)

def execInciz (dest : RegIdx) (k : Nibble) (b : RegIdx) (s : State) : Host.Outcome State Fault Refusal :=
  .next (runCycle dest (incizValue dest k b) s)

def execDecin (dest : RegIdx) (k : Nibble) (b : RegIdx) (s : State) : Host.Outcome State Fault Refusal :=
  .next (runCycle dest (decinValue dest k b) s)

def execMovez (dest a b : RegIdx) (s : State) : Host.Outcome State Fault Refusal :=
  .next (runCycle dest (movezValue a b) s)

def execMovex (dest a b : RegIdx) (s : State) : Host.Outcome State Fault Refusal :=
  .next (runCycle dest (movexValue a b) s)

def execMovep (dest a b : RegIdx) (s : State) : Host.Outcome State Fault Refusal :=
  .next (runCycle dest (movepValue a b) s)

def execMoven (dest a b : RegIdx) (s : State) : Host.Outcome State Fault Refusal :=
  .next (runCycle dest (movenValue a b) s)

end Sys2Proof.Machine
end

