-- ==== Sys2Proof/Machine/Immediate.lean ====
section
/-! DEFINITION. The two immediate operations, ops 8 and 9 (42_immediate.md). -/

namespace Sys2Proof.Machine

/-- `set`: `zext_16(imm8)`, the upper byte 0 (R170). -/
def setValue (k : Byte) (_ : State) : Option Word := some (literal8Operand k)

/-- `seth`: the literal in the high byte, the low byte of `x[dest]` kept; the shift is 16 bits wide (R171,
90_conflicts.md C9). -/
def sethValue (dest : RegIdx) (k : Byte) (t : State) : Option Word :=
  some (withHighByte (regOperand t dest) k)

def execSet (dest : RegIdx) (k : Byte) (s : State) : Host.Outcome State Fault Refusal :=
  .next (runCycle dest (setValue k) s)

def execSeth (dest : RegIdx) (k : Byte) (s : State) : Host.Outcome State Fault Refusal :=
  .next (runCycle dest (sethValue dest k) s)

end Sys2Proof.Machine
end

