-- ==== Sys2Proof/Machine/RegisterAlu.lean ====
section
/-! DEFINITION. The eight register and ALU operations, ops 0 to 7 (41_register_alu.md).  All are
unconditional and wrap modulo 2^16 (R158).  `<op>Value` is the operation on the state after sampling, and
`exec<Op>` the whole cycle of the instruction. -/

namespace Sys2Proof.Machine

/-- `mov`: `x[a]` (R150). -/
def movValue (a : RegIdx) (t : State) : Option Word := some (regOperand t a)

/-- `not`: `~x[a]` (R151). -/
def notValue (a : RegIdx) (t : State) : Option Word := some (~~~ regOperand t a)

/-- `and`: `x[a] & x[b]` (R152). -/
def andValue (a b : RegIdx) (t : State) : Option Word := some (regOperand t a &&& regOperand t b)

/-- `or`: `x[a] | x[b]` (R153). -/
def orValue (a b : RegIdx) (t : State) : Option Word := some (regOperand t a ||| regOperand t b)

/-- `add`: `x[a] + x[b]` (R154). -/
def addValue (a b : RegIdx) (t : State) : Option Word := some (regOperand t a + regOperand t b)

/-- `sub`: `x[a] - x[b]` (R155). -/
def subValue (a b : RegIdx) (t : State) : Option Word := some (regOperand t a - regOperand t b)

/-- `addi`: `x[a] + zext_16(b)` (R156). -/
def addiValue (a : RegIdx) (k : Nibble) (t : State) : Option Word := some (regOperand t a + literalOperand k)

/-- `subi`: `x[a] - zext_16(b)` (R157). -/
def subiValue (a : RegIdx) (k : Nibble) (t : State) : Option Word := some (regOperand t a - literalOperand k)

def execMov (dest a : RegIdx) (s : State) : Host.Outcome State Fault Refusal :=
  .next (runCycle dest (movValue a) s)

def execNot (dest a : RegIdx) (s : State) : Host.Outcome State Fault Refusal :=
  .next (runCycle dest (notValue a) s)

def execAnd (dest a b : RegIdx) (s : State) : Host.Outcome State Fault Refusal :=
  .next (runCycle dest (andValue a b) s)

def execOr (dest a b : RegIdx) (s : State) : Host.Outcome State Fault Refusal :=
  .next (runCycle dest (orValue a b) s)

def execAdd (dest a b : RegIdx) (s : State) : Host.Outcome State Fault Refusal :=
  .next (runCycle dest (addValue a b) s)

def execSub (dest a b : RegIdx) (s : State) : Host.Outcome State Fault Refusal :=
  .next (runCycle dest (subValue a b) s)

def execAddi (dest a : RegIdx) (k : Nibble) (s : State) : Host.Outcome State Fault Refusal :=
  .next (runCycle dest (addiValue a k) s)

def execSubi (dest a : RegIdx) (k : Nibble) (s : State) : Host.Outcome State Fault Refusal :=
  .next (runCycle dest (subiValue a k) s)

end Sys2Proof.Machine
end

