-- ==== Sys2Proof/Machine/Dispatch.lean ====
section
/-! DEFINITION. One arm for each instruction.  `exec i s` is the whole cycle of `i` on the state `s` at the
start of the cycle (R130); that `i` is the word fetched, and that a cycle is due, is `step`'s part. -/

namespace Sys2Proof.Machine

def exec (i : Instr) (s : State) : Host.Outcome State Fault Refusal :=
  match i with
  -- 41_register_alu.md
  | .mov dest a => Sys2Proof.Machine.execMov dest a s
  | .not dest a => Sys2Proof.Machine.execNot dest a s
  | .and dest a b => Sys2Proof.Machine.execAnd dest a b s
  | .or dest a b => Sys2Proof.Machine.execOr dest a b s
  | .add dest a b => Sys2Proof.Machine.execAdd dest a b s
  | .sub dest a b => Sys2Proof.Machine.execSub dest a b s
  | .addi dest a imm => Sys2Proof.Machine.execAddi dest a imm s
  | .subi dest a imm => Sys2Proof.Machine.execSubi dest a imm s
  -- 42_immediate.md
  | .set dest imm8 => Sys2Proof.Machine.execSet dest imm8 s
  | .seth dest imm8 => Sys2Proof.Machine.execSeth dest imm8 s
  -- 43_conditional.md
  | .inciz dest imm b => Sys2Proof.Machine.execInciz dest imm b s
  | .decin dest imm b => Sys2Proof.Machine.execDecin dest imm b s
  | .movez dest a b => Sys2Proof.Machine.execMovez dest a b s
  | .movex dest a b => Sys2Proof.Machine.execMovex dest a b s
  | .movep dest a b => Sys2Proof.Machine.execMovep dest a b s
  | .moven dest a b => Sys2Proof.Machine.execMoven dest a b s

end Sys2Proof.Machine
end

