-- ==== Sys2Proof/Machine/Step.lean ====
section
/-! DEFINITION. One step of the core: the cycle boundary, and the cycle of the fetched instruction if one is due. -/

namespace Sys2Proof.Machine

/-- One step of the core, with a host that neither stops it nor objects to a notification; `Session.step`
(Machine/HostInterface.lean) is the step beside a host that may.  A cycle is `exec` of the word fetched (R130, R132,
R133); a halt changes the status only. -/
def step (s : State) : Host.Outcome State Fault Refusal :=
  match boundary s with
  | .wait => .next s
  | .halt => .next (endRun .halted s)
  | .cycle => exec (decodeWord (fetchWord s)) s

/-- The word of a table row placed where `step` fetches its next instruction (`State.placeWord`). -/
def State.withFetchWord (s : State) (nbits w : Nat) : State :=
  s.placeWord (BitVec.ofNat 16 (w % 2 ^ nbits))

end Sys2Proof.Machine
end

