-- ==== Sys2Proof/Machine/Loader.lean ====
section
/-! DEFINITION. How the ROM gets its contents before a run: the loader over a stream of records
(70_reset_and_hazards.md rules R233 to R240). -/

namespace Sys2Proof.Machine

/-- The type of a record: data, end-of-file, or one that the loader ignores (R235, R236, R237). -/
inductive RecordType where
  | data
  | endOfFile
  /-- Any other type, with its code. -/
  | other (code : Byte)
  deriving DecidableEq, Repr

/-- A record of the image.  Its length is the number of its data bytes (R241). -/
structure Record where
  type : RecordType
  address : Word
  data : List Byte
  deriving DecidableEq, Repr

/-- What the I8HEX reader finds wrong with a line.  The spec gives the form of a record and no names for
these; the names are the model's.  See log entry 6. -/
inductive HexError where
  | noColon
  | badDigit
  | badLength
  | badChecksum
  deriving DecidableEq, Repr

/-- An error that the record stream itself surfaces (R238). -/
inductive StreamError where
  /-- An error of the I8HEX reader. -/
  | underlying (error : HexError)
  /-- An I/O error.  Raised by whatever reads the file, which is outside the model. -/
  | io
  deriving DecidableEq, Repr

/-- The errors of a load (R238, R239). -/
inductive LoadErrorKind where
  /-- A data record whose length is not 2. -/
  | malformedRecordSize
  /-- An address of 65 535 or more. -/
  | addressOutOfRange
  /-- An error of the stream. -/
  | stream (error : StreamError)
  /-- The stream ends with no end-of-file record (R239). -/
  | missingEndOfFile
  deriving DecidableEq, Repr

/-- A load error with the one-based number of the record it is found at (R238). -/
structure LoadError where
  kind : LoadErrorKind
  record : Nat
  deriving DecidableEq, Repr

/-- The two checks of a data record, in their order, and the word it holds, `(data[0] << 8) | data[1]`
(R235). -/
def recordWord (r : Record) : Except LoadErrorKind Word :=
  match r.data with
  | [b0, b1] => if r.address.toNat < romWords then .ok (wordOfBytes b0 b1) else .error .addressOutOfRange
  | _ => .error .malformedRecordSize

/-- Reads the stream from record number `n` on, into a ROM that holds what the records before gave
(R234 to R240). -/
def loadFrom (n : Nat) (rom : Sparse 16) : List (Except StreamError Record) → Except LoadError (Sparse 16)
  | [] => .error ⟨.missingEndOfFile, n⟩
  | .error e :: _ => .error ⟨.stream e, n⟩
  | .ok r :: rest =>
    match r.type with
    | .data =>
      match recordWord r with
      | .ok w => loadFrom (n + 1) (sparseWrite rom r.address.toNat w) rest
      | .error e => .error ⟨e, n⟩
    | .endOfFile => .ok rom
    | .other _ => loadFrom (n + 1) rom rest

/-- Loads an image into a ROM of zeros (R233, R234). -/
def loadRom (stream : List (Except StreamError Record)) : Except LoadError (Sparse 16) := loadFrom 1 [] stream

/-- A created core with a ROM: the reset state, `ready` (R41, R230, R232). -/
def bootState (rom : Sparse 16) : State := { State.reset with rom := rom }

/-- Boot: a load that succeeds gives a core that can be started, and one that fails gives none (R238,
R242). -/
def boot (stream : List (Except StreamError Record)) : Except LoadError State :=
  match loadRom stream with
  | .ok rom => .ok (bootState rom)
  | .error e => .error e

/-- The exit status of a command: 0, or something else (R111, R238).  The spec names no other number. -/
inductive ExitStatus where
  | zero
  | nonZero
  deriving DecidableEq, Repr

/-- The exit status that the load gives the `run` command: after an error it exits non-zero (R238), and otherwise
it does not exit, but runs. -/
def runExit : Except LoadError State → Option ExitStatus
  | .error _ => some .nonZero
  | .ok _ => none

end Sys2Proof.Machine
end

