-- ==== Sys2Proof/Machine/Hex.lean ====
section
/-! DEFINITION. The I8HEX text of an image (R110, R241): reading a line as a record and writing a record as
a line.  PRESUMED, as R241 itself is [from general knowledge, not in source]: type 00 is data, 01 is
end-of-file, and the checksum is the two's complement of the low byte of the sum of the bytes before it.
See log entry 6.  The core does not depend on this file. -/

namespace Sys2Proof.Machine

/-- The value of a hexadecimal digit. -/
def hexDigitValue (c : Char) : Option Nat :=
  if '0' ≤ c ∧ c ≤ '9' then some (c.toNat - 48)
  else if 'A' ≤ c ∧ c ≤ 'F' then some (c.toNat - 55)
  else if 'a' ≤ c ∧ c ≤ 'f' then some (c.toNat - 87)
  else none

/-- The hexadecimal digit of a nibble. -/
def hexDigit (n : Nibble) : Char :=
  if n.toNat < 10 then Char.ofNat (48 + n.toNat) else Char.ofNat (55 + n.toNat)

/-- A byte as two hexadecimal digits. -/
def hexByte (b : Byte) : List Char := [hexDigit (b.extractLsb' 4 4), hexDigit (b.extractLsb' 0 4)]

/-- The bytes of a run of hexadecimal digits, two a byte. -/
def readHexBytes : List Char → Except HexError (List Byte)
  | [] => .ok []
  | [_] => .error .badDigit
  | c :: d :: rest =>
    match hexDigitValue c, hexDigitValue d with
    | some h, some l =>
      match readHexBytes rest with
      | .ok bytes => .ok (BitVec.ofNat 8 (h * 16 + l) :: bytes)
      | .error e => .error e
    | _, _ => .error .badDigit

/-- The sum of a run of bytes, modulo 256. -/
def byteSum (bytes : List Byte) : Byte := bytes.foldl (· + ·) 0

/-- The type of a record with the code `TT`. -/
def recordType (code : Byte) : RecordType :=
  if code = 0 then .data else if code = 1 then .endOfFile else .other code

/-- The code `TT` of a record type. -/
def typeCode : RecordType → Byte
  | .data => 0
  | .endOfFile => 1
  | .other code => code

/-- The record of the bytes of a line: `LL`, `AAAA`, `TT`, `LL` data bytes and `CC` (R241).  DESIGN CHOICE: of two faults
of a line the length is reported before the checksum.  See log entry 6. -/
def recordOfBytes (bytes : List Byte) : Except HexError Record :=
  match bytes with
  | ll :: a1 :: a0 :: tt :: rest =>
    if rest.length ≠ ll.toNat + 1 then .error .badLength
    else if byteSum bytes ≠ 0 then .error .badChecksum
    else .ok ⟨recordType tt, wordOfBytes a1 a0, rest.take ll.toNat⟩
  | _ => .error .badLength

/-- The record of a line (R241).  DESIGN CHOICE: of several faults of a line the missing colon is reported first, then
the digits, an odd number of them being `badDigit`, then those of `recordOfBytes`.  See log entry 6. -/
def readRecord (line : List Char) : Except HexError Record :=
  match line with
  | ':' :: digits =>
    match readHexBytes digits with
    | .ok bytes => recordOfBytes bytes
    | .error e => .error e
  | _ => .error .noColon

/-- The bytes of a record up to the checksum. -/
def recordBody (r : Record) : List Byte :=
  BitVec.ofNat 8 r.data.length :: (bytesOfWord r.address ++ typeCode r.type :: r.data)

/-- The checksum of a run of bytes: the two's complement of their sum (R241). -/
def checksum (bytes : List Byte) : Byte := -byteSum bytes

/-- The line of a record, `:LLAAAATT[DD...]CC`, without its newline (R110, R241). -/
def writeRecord (r : Record) : List Char :=
  ':' :: (recordBody r ++ [checksum (recordBody r)]).flatMap hexByte

/-- The lines of a text: a newline ends a line.  DESIGN CHOICE: what stands after the last newline is one more line
unless it is empty, so a last record, or a last line of assembler source, with no newline after it is read as a whole
one; R241 and R100 say nothing of such a line.  See log entries 6 and 7. -/
def splitLinesFrom (line : List Char) : List Char → List (List Char)
  | [] => if line = [] then [] else [line.reverse]
  | c :: rest => if c = '\n' then line.reverse :: splitLinesFrom [] rest else splitLinesFrom (c :: line) rest

/-- The lines of a text. -/
def splitLines (text : List Char) : List (List Char) := splitLinesFrom [] text

/-- The record stream of an I8HEX text. -/
def readImage (text : List Char) : List (Except StreamError Record) :=
  (splitLines text).map fun line =>
    match readRecord line with
    | .ok r => .ok r
    | .error e => .error (.underlying e)

/-- The I8HEX text of a list of records, each line ended by a newline (R110). -/
def writeImage (records : List Record) : List Char :=
  records.flatMap fun r => writeRecord r ++ ['\n']

end Sys2Proof.Machine
end

