-- ==== Sys2Proof/Machine/Assembler.lean ====
section
/-! DEFINITION. The toolchain's assembler (30_encoding.md rules R100 to R113): a tool around the core, not
the core's behaviour (R5).  Text is a list of characters. -/

namespace Sys2Proof.Machine

/-! ### Tokens (R100, R101) -/

/-- ASCII whitespace.  DESIGN CHOICE: space, tab, line feed, form feed and carriage return; R100 gives no set, and a
vertical tab is a token character.  See log entry 7. -/
def isAsciiSpace (c : Char) : Bool :=
  c.toNat = 32 || c.toNat = 9 || c.toNat = 10 || c.toNat = 12 || c.toNat = 13

/-- ASCII lowercasing (log entry 7). -/
def lowerChar (c : Char) : Char :=
  if 'A' ≤ c ∧ c ≤ 'Z' then Char.ofNat (c.toNat + 32) else c

/-- The tokens of a line, from a point inside a token whose characters so far are `token`, last first. -/
def splitTokensFrom (token : List Char) : List Char → List (List Char)
  | [] => if token = [] then [] else [token.reverse]
  | c :: rest =>
    if isAsciiSpace c then
      if token = [] then splitTokensFrom [] rest else token.reverse :: splitTokensFrom [] rest
    else splitTokensFrom (c :: token) rest

/-- "Trim; lowercase; split on ASCII whitespace into tokens" (R100).  Splitting drops the white space that
trimming would. -/
def tokensOfLine (line : List Char) : List (List Char) := splitTokensFrom [] (line.map lowerChar)

/-! ### Mnemonics, registers and literals (R102, R105, R106, R107) -/

/-- The mnemonic table: both spellings of a pair give one operation (R102). -/
def mnemonicTable : List (String × Op) :=
  [("mov", .mov), ("move", .mov), ("not", .not), ("and", .and), ("or", .or), ("add", .add), ("sub", .sub),
   ("addi", .addi), ("subi", .subi), ("set", .set), ("seth", .seth)] ++
  [("incz", .inciz), ("inciz", .inciz), ("decn", .decin), ("decin", .decin), ("movz", .movez), ("movez", .movez),
   ("movx", .movex), ("movex", .movex), ("movp", .movep), ("movep", .movep), ("movn", .moven), ("moven", .moven)]

/-- The register tokens (R105). -/
def registerTable : List (String × RegIdx) :=
  [("r0", 0), ("r1", 1), ("r2", 2), ("r3", 3), ("r4", 4), ("r5", 5), ("r6", 6), ("r7", 7), ("r8", 8), ("r9", 9),
   ("r10", 10), ("r11", 11), ("r12", 12), ("r13", 13), ("r14", 14), ("r15", 15)] ++
  [("ra", 10), ("rb", 11), ("rc", 12), ("rd", 13), ("re", 14), ("rf", 15), ("in", 6), ("out0", 13), ("out1", 14),
   ("pc", 15)]

/-- The entry of a token in a table of spellings. -/
def lookupToken {α : Type} (table : List (String × α)) (token : List Char) : Option α :=
  match table with
  | [] => none
  | (name, v) :: rest => if name.toList = token then some v else lookupToken rest token

/-- The value of a run of digits in a base, or nothing if one is no digit of it. -/
def digitsValue (base : Nat) (soFar : Nat) : List Char → Option Nat
  | [] => some soFar
  | c :: rest =>
    match hexDigitValue c with
    | some d => if d < base then digitsValue base (soFar * base + d) rest else none
    | none => none

/-- The value of a run of at least one digit. -/
def numberValue (base : Nat) (digits : List Char) : Option Nat :=
  match digits with
  | [] => none
  | c :: rest => digitsValue base 0 (c :: rest)

/-- A decimal literal in −128..127, as its two's-complement byte (R106, R107). -/
def signedByte (v : Int) : Option Byte :=
  if -128 ≤ v ∧ v ≤ 127 then some (BitVec.ofInt 8 v) else none

/-- The 8-bit value of a literal token: hexadecimal up to 0xFF, or decimal with at most one sign (R106).  DESIGN
CHOICE: leading zeros are accepted in both, so `007` is 7, and a hexadecimal literal carries no sign.  See log
entry 7. -/
def literalByte (token : List Char) : Option Byte :=
  match token with
  | '0' :: 'x' :: digits => (numberValue 16 digits).bind fun v => if v < 256 then some (BitVec.ofNat 8 v) else none
  | '-' :: digits => (numberValue 10 digits).bind fun v => signedByte (-(v : Int))
  | '+' :: digits => (numberValue 10 digits).bind fun v => signedByte v
  | digits => (numberValue 10 digits).bind fun v => signedByte v

/-! ### A line (R101, R103, R104, R108, R111) -/

/-- The kinds of an operand (R103). -/
inductive OperandKind where
  | reg
  | literal
  deriving DecidableEq, Repr

/-- The operands of each operation, in the order `dest`, `a`, `b` (R103). -/
def operandKinds : Op → List OperandKind
  | .mov => [.reg, .reg]
  | .not => [.reg, .reg]
  | .and => [.reg, .reg, .reg]
  | .or => [.reg, .reg, .reg]
  | .add => [.reg, .reg, .reg]
  | .sub => [.reg, .reg, .reg]
  | .addi => [.reg, .reg, .literal]
  | .subi => [.reg, .reg, .literal]
  | .set => [.reg, .literal, .literal]
  | .seth => [.reg, .literal, .literal]
  | .inciz => [.reg, .literal, .reg]
  | .decin => [.reg, .literal, .reg]
  | .movez => [.reg, .reg, .reg]
  | .movex => [.reg, .reg, .reg]
  | .movep => [.reg, .reg, .reg]
  | .moven => [.reg, .reg, .reg]

/-- The errors of the assembler (R111). -/
inductive AsmErrorKind where
  | unknownMnemonic
  | unknownRegister
  | badLiteral
  | wrongOperandCount
  /-- Raised where reading a line of the source, or writing the image, fails. -/
  | ioError
  deriving DecidableEq, Repr

/-- An error with its one-based line number and the offending token (R111). -/
structure AsmError where
  kind : AsmErrorKind
  line : Nat
  token : List Char
  deriving DecidableEq, Repr

/-- The 4-bit field of an operand token: a register index, or the low 4 bits of a literal (R105, R107). -/
def operandField (kind : OperandKind) (token : List Char) : Except AsmErrorKind Nibble :=
  match kind with
  | .reg =>
    match lookupToken registerTable token with
    | some r => .ok (nibbleOfReg r)
    | none => .error .unknownRegister
  | .literal =>
    match literalByte token with
    | some v => .ok (v.extractLsb' 0 4)
    | none => .error .badLiteral

/-- The fields of the operands of a line, left to right; the count must match exactly (R104).  The count is
looked at before any operand (log entry 7). -/
def operandFields (line : Nat) (kinds : List OperandKind) (tokens : List (List Char)) :
    Except AsmError (List Nibble) :=
  match kinds, tokens with
  | kind :: kinds, token :: tokens =>
    match operandField kind token with
    | .error e => .error ⟨e, line, token⟩
    | .ok n =>
      match operandFields line kinds tokens with
      | .error e => .error e
      | .ok ns => .ok (n :: ns)
  | _, _ => .ok []

/-- The word of an operation and its operand fields, an absent operand being 0 (R108). -/
def wordOfOperands (op : Op) (fields : List Nibble) : Word :=
  joinWord ⟨opCode op, fields.getD 0 0, fields.getD 1 0, fields.getD 2 0⟩

/-- The word of the tokens of a line, nothing for an empty line or a comment (R101 to R104, R108). -/
def assembleTokens (line : Nat) (tokens : List (List Char)) : Except AsmError (Option Word) :=
  match tokens with
  | [] => .ok none
  | ('#' :: _) :: _ => .ok none
  | name :: operands =>
    match lookupToken mnemonicTable name with
    | none => .error ⟨.unknownMnemonic, line, name⟩
    | some op =>
      if operands.length ≠ (operandKinds op).length then .error ⟨.wrongOperandCount, line, name⟩
      else
        match operandFields line (operandKinds op) operands with
        | .error e => .error e
        | .ok fields => .ok (some (wordOfOperands op fields))

/-- The word of a line (R100). -/
def assembleLine (line : Nat) (text : List Char) : Except AsmError (Option Word) :=
  assembleTokens line (tokensOfLine text)

/-! ### A file (R109 to R111) -/

/-- What reading one line of the source gives: its text, or an I/O error. -/
inductive SourceLine where
  | text (line : List Char)
  | ioError
  deriving DecidableEq, Repr

/-- The words of a list of lines in order, from line number `n` on, up to the first error (R111).  DESIGN CHOICE: an
I/O error is reported at the line it is met at, with no token.  See log entry 7. -/
def assembleLines (n : Nat) : List SourceLine → Except AsmError (List Word)
  | [] => .ok []
  | .ioError :: _ => .error ⟨.ioError, n, []⟩
  | .text text :: rest =>
    match assembleLine n text with
    | .error e => .error e
    | .ok word =>
      match assembleLines (n + 1) rest with
      | .error e => .error e
      | .ok words => .ok (word.toList ++ words)

/-- The lines of a text that is read without an error. -/
def sourceLines (source : List Char) : List SourceLine := (splitLines source).map .text

/-- The words of a source text. -/
def assemble (source : List Char) : Except AsmError (List Word) := assembleLines 1 (sourceLines source)

/-- The records of a list of words: one data record of two bytes for each, at sequential word addresses from
`k` on, then the end-of-file record (R108, R109, R110). -/
def recordsFrom (k : Nat) : List Word → List Record
  | [] => [⟨.endOfFile, 0, []⟩]
  | w :: rest => ⟨.data, BitVec.ofNat 16 k, bytesOfWord w⟩ :: recordsFrom (k + 1) rest

/-- The `assemble` command, from the lines read and whether the image could be written: the I8HEX text, or the first
error (R110, R111).  DESIGN CHOICE: an I/O error of the writing is reported one past the last line, with no token.
See log entry 7. -/
def assembleCommand (source : List SourceLine) (written : Bool) : Except AsmError (List Char) :=
  match assembleLines 1 source with
  | .error e => .error e
  | .ok words =>
    if written then .ok (writeImage (recordsFrom 0 words)) else .error ⟨.ioError, source.length + 1, []⟩

/-- The `assemble` command exits 0 on success and non-zero on the first error (R111). -/
def assembleExit : Except AsmError (List Char) → ExitStatus
  | .ok _ => .zero
  | .error _ => .nonZero

/-- The I8HEX text that a source text assembles to (R110). -/
def assembleImage (source : List Char) : Except AsmError (List Char) := assembleCommand (sourceLines source) true

/-! ### Back to text (R113) -/

/-- The spelling of an operation: the table's name for it (R96). -/
def opName : Op → String
  | .mov => "mov"
  | .not => "not"
  | .and => "and"
  | .or => "or"
  | .add => "add"
  | .sub => "sub"
  | .addi => "addi"
  | .subi => "subi"
  | .set => "set"
  | .seth => "seth"
  | .inciz => "inciz"
  | .decin => "decin"
  | .movez => "movez"
  | .movex => "movex"
  | .movep => "movep"
  | .moven => "moven"

/-- A number below 16 in decimal. -/
def decimalNibble (n : Nibble) : List Char :=
  if n.toNat < 10 then [Char.ofNat (48 + n.toNat)] else ['1', Char.ofNat (38 + n.toNat)]

/-- An operand as text: `r0` to `r15`, or the 4-bit value of a literal (R105, R113). -/
def operandText (kind : OperandKind) (n : Nibble) : List Char :=
  match kind with
  | .reg => 'r' :: decimalNibble n
  | .literal => decimalNibble n

/-- The operand texts of a word, by the kinds of its operation (R103, R113). -/
def operandTexts (kinds : List OperandKind) (fields : List Nibble) : List (List Char) :=
  match kinds, fields with
  | kind :: kinds, n :: fields => operandText kind n :: operandTexts kinds fields
  | _, _ => []

/-- The tokens of a word (R113). -/
def disassembleTokens (w : Word) : List (List Char) :=
  let f := splitWord w
  (opName (opOfNibble f.op)).toList :: operandTexts (operandKinds (opOfNibble f.op)) [f.dest, f.a, f.b]

/-- The line of a word: its tokens with a space before each but the first (R113). -/
def disassemble (w : Word) : List Char :=
  match disassembleTokens w with
  | [] => []
  | token :: rest => token ++ rest.flatMap fun t => ' ' :: t

end Sys2Proof.Machine
end

