-- ==== Sys2Proof/Machine/HostInterface.lean ====
section
/-! DEFINITION. The core beside its host (60_exceptions.md rules R213 to R217): a session of the two, its step, the
host's moves, and what the host sees.  A host move stands between two steps, at a cycle boundary; it never writes a
register, ROM, RAM, the screen or the counter (R66, R212). -/

namespace Sys2Proof.Machine

/-! ### The session -/

/-- Where the notification of the last completed cycle stands (R138, R214, O9). -/
inductive Notification where
  /-- None is outstanding: no cycle has completed yet, or the last notification has returned. -/
  | quiet
  /-- The last cycle notified the host, and the host has not objected. -/
  | issued
  /-- The notification has not returned (O9): the core waits at the cycle boundary. -/
  | blocked
  /-- The notification reported an error (R214). -/
  | failed (error : HostError)
  deriving DecidableEq, Repr

/-- What the host has asked for and the core has not yet acted on.  It is the environment's, and no part of the
state (R40).  See log entry 2. -/
structure HostPort where
  /-- The shutdown flag that the core looks at on its next cycle boundary (R213). -/
  stop : Bool
  notification : Notification
  deriving DecidableEq, Repr

/-- The host has asked for nothing. -/
def HostPort.idle : HostPort := ⟨false, .quiet⟩

/-- A core and its host. -/
structure Session where
  core : State
  host : HostPort
  deriving DecidableEq, Repr

/-- What the host's side makes of a cycle boundary. -/
inductive HostDecision where
  /-- The notification of the last cycle has not returned (O9). -/
  | hold
  /-- The run ends (R213, R214). -/
  | stop (reason : StopReason)
  /-- The core goes on as `step` says. -/
  | go
  deriving DecidableEq, Repr

/-- The decision.  The notification belongs to the cycle before the boundary, so it is settled first (R138, R214, O9;
log entry 3); then the halt test, which is `step`'s; then the stop request (R204). -/
def Session.decision (m : Session) : HostDecision :=
  match m.core.status with
  | .running =>
    match m.host.notification with
    | .blocked => .hold
    | .failed e => .stop (.notifyError e)
    | .quiet | .issued => if m.host.stop && decide (m.core.pc ≠ haltPc) then .stop .hostStop else .go
  | .ready => .go
  | .halted => .go
  | .faulted _ => .go
  | .stopped _ => .go

/-- The notification after a step to `u`: a core that still runs has completed a cycle, and has notified the host
(R138); any other has not. -/
def notificationAfter (u : State) (n : Notification) : Notification :=
  match u.status with
  | .running => .issued
  | .ready => n
  | .halted => n
  | .faulted _ => n
  | .stopped _ => n

/-- One step of a core beside its host. -/
def Session.step (m : Session) : Host.Outcome Session Fault Refusal :=
  match m.decision with
  | .hold => .next m
  | .stop reason => .next { m with core := endRun (.stopped reason) m.core }
  | .go =>
    match Sys2Proof.Machine.step m.core with
    | .next u => .next ⟨u, { m.host with notification := notificationAfter u m.host.notification }⟩
    | .fault f => .fault f
    | .refused r => .refused r

/-- `n` steps of a session with no host move between them. -/
def Session.steps (n : Nat) (m : Session) : Host.Outcome Session Fault Refusal :=
  match n with
  | 0 => .next m
  | n + 1 =>
    match m.step with
    | .next m' => m'.steps n
    | .fault f => .fault f
    | .refused r => .refused r

/-! ### The host's moves -/

/-- The moves of the host after the load (R217). -/
inductive HostMove where
  /-- The start signal (R216). -/
  | start
  /-- The stop request (R213). -/
  | stop
  /-- The notification of the last cycle returns (R138). -/
  | notifyReturns
  /-- The notification of the last cycle does not return yet (O9). -/
  | notifyBlocks
  /-- The notification of the last cycle reports an error (R214). -/
  | notifyFails (error : HostError)
  deriving DecidableEq, Repr

/-- `m` with the notification of the last cycle at `n`. -/
def Session.withNotification (m : Session) (n : Notification) : Session :=
  { m with host := { m.host with notification := n } }

/-- A host move.  A start moves a `ready` core to `running` at once (R216).  A stop counts at any time of the run, from
the start on (R213): a stop before the start is not covered by the source, and is given no move
(91_not_in_source.md; log entry 3).  A notification can only be answered while one is outstanding.  In an end state no
move does anything (R206). -/
def hostMove (move : HostMove) (m : Session) : Session :=
  match move with
  | .start => { m with core := startCore m.core }
  | .stop =>
    match m.core.status with
    | .running => { m with host := { m.host with stop := true } }
    | .ready | .halted | .faulted _ | .stopped _ => m
  | .notifyReturns =>
    match m.core.status, m.host.notification with
    | .running, .issued | .running, .blocked => m.withNotification .quiet
    | _, _ => m
  | .notifyBlocks =>
    match m.core.status, m.host.notification with
    | .running, .issued => m.withNotification .blocked
    | _, _ => m
  | .notifyFails e =>
    match m.core.status, m.host.notification with
    | .running, .issued | .running, .blocked => m.withNotification (.failed e)
    | _, _ => m

/-! ### The snapshot -/

/-- What the host may read at a cycle boundary (R215).  RAM is no part of it. -/
structure Snapshot where
  registers : Vector Word 16
  screen : Vector Byte 16
  clock : BitVec 64
  /-- The ROM words at the twelve addresses of `Config.romWindow`; 0xFFFF has none. -/
  window : Vector (Word × Option Word) 12
  /-- The decoded current instruction; none at a PC of 0xFFFF, which names no ROM word. -/
  current : Option Instr
  deriving DecidableEq, Repr

/-- The snapshot of a state; reading it changes nothing (R215). -/
def snapshot (s : State) : Snapshot where
  registers := s.x
  screen := s.screen
  clock := s.clock
  window := (Config.romWindow s.pc).map fun a => (a, romWord? s a)
  current := (romWord? s s.pc).map decodeWord

/-- Whether the pixel at a column and a row (0 at the top) is lit: bit `7 - row` of byte `column`, a 1 bit
being a lit pixel (R56, D18). -/
def pixelLit (s : State) (column : Fin 16) (row : Fin 8) : Bool :=
  (screenRead s column).getLsbD (7 - row.val)

/-! ### The step-speed, a parameter of the host (R8, R261) -/

/-- The speed clamped into 1..10 (R242, R261). -/
def clampSpeed (n : Nat) : Nat := max 1 (min 10 n)

/-- The speed of a run: the default is 5 (R8, R242, R261). -/
def runSpeed (asked : Option Nat) : Nat :=
  match asked with
  | some n => clampSpeed n
  | none => defaultSpeed

/-- The pause between two cycles, in milliseconds.  It changes no state (R261, D17). -/
def pauseMs (speed : Nat) : Nat := (10 - speed) * 100

end Sys2Proof.Machine
end

