-- ==== Sys2Proof/Machine/Operation.lean ====
section
/-! DEFINITION. Step 2 of a cycle on its own, for claims about all instructions: the operation that an
instruction selects (R133), and the state it leaves to output emission. -/

namespace Sys2Proof.Machine

/-- The value an instruction writes to `x[dest]` in the state after sampling, or `none` when it does not
write: `wrote` is `isSome` (R36, R133). -/
def operation : Instr → State → Option Word
  | .mov _ a => movValue a
  | .not _ a => notValue a
  | .and _ a b => andValue a b
  | .or _ a b => orValue a b
  | .add _ a b => addValue a b
  | .sub _ a b => subValue a b
  | .addi _ a k => addiValue a k
  | .subi _ a k => subiValue a k
  | .set _ k => setValue k
  | .seth d k => sethValue d k
  | .inciz d k b => incizValue d k b
  | .decin d k b => decinValue d k b
  | .movez _ a b => movezValue a b
  | .movex _ a b => movexValue a b
  | .movep _ a b => movepValue a b
  | .moven _ a b => movenValue a b

/-- The state after steps 1 and 2 of a cycle of `i` that starts in `s`: sampled, and executed. -/
def executed (i : Instr) (s : State) : State :=
  writeBack i.dest (operation i (inputSample s)) (inputSample s)

end Sys2Proof.Machine
end

