-- ==== Sys2Proof/Safety.lean ====
section
/-! DEFINITION. The terms of claims: the invariant of the state, what a completed cycle leaves, how a run
ends, and which states a run can reach. -/

namespace Sys2Proof.Machine

/-! ### The invariant -/

/-- The memories have their canonical form. -/
def State.wf (s : State) : Bool := romWf s.rom && Memory.wf s.ram

/-- What every state of a run satisfies. -/
structure State.Inv (s : State) : Prop where
  /-- The memories have their canonical form, within their sizes (R51, R53). -/
  memory : s.wf = true
  /-- A halted core has the PC 0xFFFF (R137). -/
  halted : s.status = .halted → s.pc = haltPc
  /-- A faulted core stands at the instruction whose write had no location (R139, R202). -/
  faulted : ∀ pc x14, s.status = .faulted (.screenWriteOutOfRange pc x14) →
    s.pc = pc ∧ pc ≠ haltPc ∧ 16 ≤ (x14 &&& screenWriteMask).toNat
  /-- A core not started is as created, with a ROM (R41, R216). -/
  ready : s.status = .ready → s = { State.reset with rom := s.rom }

/-- What every session of a core and its host satisfies. -/
structure Session.Inv (m : Session) : Prop where
  core : m.core.Inv
  /-- Before the start nothing is asked for and no cycle has notified (R213, R216). -/
  ready : m.core.status = .ready → m.host = .idle
  /-- A run that the host stopped had its stop asked for, and was not at the halt PC (R204, R213). -/
  hostStop : m.core.status = .stopped .hostStop → m.host.stop = true ∧ m.core.pc ≠ haltPc
  /-- A run that a notification ended had the error from it (R214). -/
  notifyError : ∀ e, m.core.status = .stopped (.notifyError e) → m.host.notification = .failed e
  /-- A notification that reported an error is acted on before anything else (R214). -/
  failed : ∀ e, m.host.notification = .failed e →
    m.core.status = .running ∨ m.core.status = .stopped (.notifyError e)

/-! ### A cycle that completes -/

/-- The emission of a state has a location, or is off (R63). -/
abbrev EmitsInRange (e : State) : Prop := e.emitTarget ≠ .outOfRange

/-- What steps 3 to 5 and the end of a cycle leave besides the registers, when the cycle starts in `s`, has
the registers of `e` after execution, and ends in `u`: ROM and status as before and the counter one up; and
every RAM byte and screen byte as before, except the one that emission writes, which holds the low byte of
register 13 (R61, R134, R138). -/
structure CycleEffects (e s u : State) : Prop where
  rom : u.rom = s.rom
  status : u.status = s.status
  clock : u.clock = s.clock + 1
  ram : ∀ a, ramRead u a = if e.emitTarget = .ram a then lowByte (e.reg out0Reg) else ramRead s a
  screen : ∀ i, screenRead u i = if e.emitTarget = .screen i then lowByte (e.reg out0Reg) else screenRead s i

/-- The completed cycle of an instruction that writes `v` to `x[dest]`, from `s` to `u`: the destination holds
`v`, every other register but the PC is as sampling left it, and the PC holds `v` if it is the destination
and the next address if it is not (R134, R136). -/
structure WritesRegister (dest : RegIdx) (v : Word) (s u : State) : Prop where
  result : u.reg dest = v
  pc : dest ≠ pcReg → u.pc = s.pc + 1
  registers : ∀ r, r ≠ dest → r ≠ pcReg → u.reg r = (inputSample s).reg r
  effects : CycleEffects ((inputSample s).setReg dest v) s u

/-- The completed cycle of an instruction that writes no register, from `s` to `u` (R134, R136, R186). -/
structure WritesNothing (s u : State) : Prop where
  pc : u.pc = s.pc + 1
  registers : ∀ r, r ≠ pcReg → u.reg r = (inputSample s).reg r
  effects : CycleEffects (inputSample s) s u

/-! ### Runs -/

/-- A status that nothing leaves (R206). -/
def Status.isEnd : Status → Bool
  | .ready => false
  | .running => false
  | .halted => true
  | .faulted _ => true
  | .stopped _ => true

/-- A run has ended normally (R218). -/
def NormalEnd (s : State) : Prop := s.status = .halted ∧ s.pc = haltPc

/-- The core is about to take a cycle. -/
abbrev TakesCycle (s : State) : Prop := boundary s = .cycle

/-- The instruction at the PC (R132, R133). -/
def State.current (s : State) : Instr := decodeWord (romRead s s.pc)

/-- The core is due a cycle whose instruction writes its own address to the PC, and whose emission is in range
(R145). -/
structure JumpsToItself (s : State) : Prop where
  due : TakesCycle s
  dest : s.current.dest = pcReg
  target : operation s.current (inputSample s) = some s.pc
  inRange : EmitsInRange (executed s.current s)

/-- The sessions of a run: a core booted from an image with a host that has asked for nothing, then steps and moves
of the host (R217). -/
inductive Reachable : Session → Prop where
  | boot (stream : List (Except StreamError Record)) (s : State) : boot stream = .ok s → Reachable ⟨s, .idle⟩
  | step (m n : Session) : Reachable m → m.step = .next n → Reachable n
  | host (m : Session) (move : HostMove) : Reachable m → Reachable (hostMove move m)

end Sys2Proof.Machine
end

