-- ==== Sys2Proof/Certificates/Slice0/Obligations.lean ====
section
/-! DEFINITION. The statements for the provers.  Each docstring names the rule of spec/ it formalises. -/

open Sys2Proof Sys2Proof.Machine

/-! ### Encoding -/

/-- One word for each operation, its four nibbles written out from the opcode map (R96). -/
def Obligations.WordsDecodeAsWritten : Prop :=
  decodeWord 0b0000_0001_0010_0000 = .mov 1 2 ∧
  decodeWord 0b0001_1111_0000_0000 = .not 15 0 ∧
  decodeWord 0b0010_0011_0001_0010 = .and 3 1 2 ∧
  decodeWord 0b0011_1101_1101_0001 = .or 13 13 1 ∧
  decodeWord 0b0100_0011_0001_0010 = .add 3 1 2 ∧
  decodeWord 0b0101_0011_0010_0001 = .sub 3 2 1 ∧
  decodeWord 0b0110_0011_0100_0101 = .addi 3 4 5 ∧
  decodeWord 0b0111_1111_1111_0010 = .subi 15 15 2 ∧
  decodeWord 0b1000_0001_0010_0011 = .set 1 0x23 ∧
  decodeWord 0b1001_0001_0100_0101 = .seth 1 0x45 ∧
  decodeWord 0b1010_0010_0101_0011 = .inciz 2 5 3 ∧
  decodeWord 0b1011_1111_0011_0010 = .decin 15 3 2 ∧
  decodeWord 0b1100_1111_0001_0010 = .movez 15 1 2 ∧
  decodeWord 0b1101_1111_0010_0001 = .movex 15 2 1 ∧
  decodeWord 0b1110_0101_0100_0001 = .movep 5 4 1 ∧
  decodeWord 0b1111_0101_0001_0001 = .moven 5 1 1

/-- A word is its four nibbles, and four nibbles are a word (R91, R92). -/
def Obligations.WordSplitsIntoNibbles : Prop :=
  (∀ w : Word,
    (splitWord w).op.toNat = (w.toNat >>> 12) &&& 0xF ∧
    (splitWord w).dest.toNat = (w.toNat >>> 8) &&& 0xF ∧
    (splitWord w).a.toNat = (w.toNat >>> 4) &&& 0xF ∧
    (splitWord w).b.toNat = w.toNat &&& 0xF ∧
    joinWord (splitWord w) = w) ∧
  ∀ f : Fields,
    (joinWord f).toNat = (f.op.toNat <<< 12) ||| (f.dest.toNat <<< 8) ||| (f.a.toNat <<< 4) ||| f.b.toNat ∧
    splitWord (joinWord f) = f

/-- Every word is an instruction, selected by the `op` field alone, with its fields read by the format of that
operation (R93, R94, R96). -/
def Obligations.EveryWordIsAnInstruction : Prop :=
  ∀ w : Word,
    decodeTableWord 16 w.toNat = some (decodeWord w) ∧
    let f := splitWord w
    let d := regOfNibble f.dest
    let a := regOfNibble f.a
    let b := regOfNibble f.b
    (f.op = 0 → decodeWord w = .mov d a) ∧
    (f.op = 1 → decodeWord w = .not d a) ∧
    (f.op = 2 → decodeWord w = .and d a b) ∧
    (f.op = 3 → decodeWord w = .or d a b) ∧
    (f.op = 4 → decodeWord w = .add d a b) ∧
    (f.op = 5 → decodeWord w = .sub d a b) ∧
    (f.op = 6 → decodeWord w = .addi d a f.b) ∧
    (f.op = 7 → decodeWord w = .subi d a f.b) ∧
    (f.op = 8 → decodeWord w = .set d (f.a ++ f.b)) ∧
    (f.op = 9 → decodeWord w = .seth d (f.a ++ f.b)) ∧
    (f.op = 10 → decodeWord w = .inciz d f.a b) ∧
    (f.op = 11 → decodeWord w = .decin d f.a b) ∧
    (f.op = 12 → decodeWord w = .movez d a b) ∧
    (f.op = 13 → decodeWord w = .movex d a b) ∧
    (f.op = 14 → decodeWord w = .movep d a b) ∧
    (f.op = 15 → decodeWord w = .moven d a b)

/-- Decoding undoes encoding, for every instruction with every operand, as a word, as the two bytes of an image
with anything after them, and as a table word (30_encoding.md, R92). -/
def Obligations.DecodeUndoesEncode : Prop :=
  ∀ i : Instr,
    decodeWord (encode i) = i ∧
    (∀ rest, decodeBytes (encodeBytes i ++ rest) = .ok (i, rest)) ∧
    decodeTableWord 16 (encode i).toNat = some i

/-- Encoding undoes decoding but for the ignored field of `mov` and `not`, which it writes as 0 (30_encoding.md sections 1, 2
and 4). -/
def Obligations.EncodeUndoesDecode : Prop :=
  ∀ w : Word, encode (decodeWord w) = if (splitWord w).op.toNat < 2 then w &&& 0xFFF0 else w

/-- Two words are one instruction only when they are equal, or are words of `mov` or of `not` that differ only in
the ignored field (30_encoding.md section 3). -/
def Obligations.OnlyIgnoredFieldSharesInstruction : Prop :=
  ∀ w v : Word, decodeWord w = decodeWord v ↔
    w = v ∨ ((splitWord w).op.toNat < 2 ∧ w >>> 4 = v >>> 4)

/-! ### Reset and the invariant -/

/-- A core as created (R230): registers, ROM, RAM, screen and counter are 0.  A booted core differs only in its
ROM, which is the loaded one. -/
def Obligations.ResetLeavesEverythingZero : Prop :=
  (∀ r, State.reset.reg r = 0) ∧ (∀ a, romRead State.reset a = 0) ∧ (∀ a, ramRead State.reset a = 0) ∧
  (∀ i, screenRead State.reset i = 0) ∧ State.reset.clock = 0 ∧
  ∀ rom : Sparse 16,
    (∀ r, (bootState rom).reg r = 0) ∧ (∀ a, romRead (bootState rom) a = sparseRead rom a.toNat) ∧
    (∀ a, ramRead (bootState rom) a = 0) ∧ (∀ i, screenRead (bootState rom) i = 0) ∧
    (bootState rom).clock = 0

/-- The reset state satisfies the invariant. -/
def Obligations.ResetMeetsInvariant : Prop := State.reset.Inv

/-- Every step keeps the invariant, from every state that has it.  The clauses of the invariant rest on decisions of
the spec's own that the model follows: that a `faulted` core stands at its instruction on D3 (log entry 9), that a
`halted` one has the PC 0xFFFF on D2 (log entry 11), and that a `ready` one is as created on D12 (log entry 1). -/
def Obligations.StepKeepsInvariant : Prop :=
  ∀ s u : State, s.Inv → step s = .next u → u.Inv

/-- Every session of a run has the invariant: after a load of any image, any steps and any host moves (R217).  The
invariant rests on the decisions that `StepKeepsInvariant` names (D2, D3, D12; log entries 1, 9 and 11) and, for the
host's side, on D10, D11 and log entries 2 and 3. -/
def Obligations.ReachableStatesMeetInvariant : Prop :=
  ∀ m : Session, Reachable m → m.Inv

/-- A step always answers a next state, of the core and of a session: no instruction raises an exception, every
status has its behaviour, and only a running core changes (60_exceptions.md).  That the fault of R202 and the end
states are next states, and that a core that does not run answers itself, is the model's reading (log entries 9 and
11, DEDUCED). -/
def Obligations.StepAlwaysAnswersNext : Prop :=
  (∀ s : State, ∃ u, step s = .next u ∧ (s.status ≠ .running → u = s)) ∧
  ∀ m : Session, ∃ n, m.step = .next n ∧ (m.core.status ≠ .running → n = m)

/-! ### The side-channel -/

/-- Input sampling (20_memory.md section 3): the byte it reads, and that it changes nothing but register 6. -/
def Obligations.InputSamplingFillsRegisterSix : Prop :=
  ∀ s : State,
    ((s.reg 13).getLsbD 15 = true → inputSample s = s) ∧
    ((s.reg 13).getLsbD 15 = false → (s.reg 13).getLsbD 14 = false →
      (inputSample s).reg 6 = (s.reg 6 &&& 0xFF00) ||| (ramRead s (s.reg 14)).setWidth 16) ∧
    ((s.reg 13).getLsbD 15 = false → (s.reg 13).getLsbD 14 = true →
      ∃ i : Fin 16, i.val = (s.reg 14 &&& 0x000F).toNat ∧
        (inputSample s).reg 6 = (s.reg 6 &&& 0xFF00) ||| (screenRead s i).setWidth 16) ∧
    (∀ r, r ≠ 6 → (inputSample s).reg r = s.reg r) ∧
    (inputSample s).rom = s.rom ∧ (inputSample s).ram = s.ram ∧ (inputSample s).screen = s.screen ∧
    (inputSample s).clock = s.clock ∧ (inputSample s).status = s.status

/-- Output emission (20_memory.md section 3): the byte it writes, and that it changes nothing else.  The error of
the last clause is the spec's own decision (92_eei_decisions.md D3; log entry 9). -/
def Obligations.OutputEmissionWritesOneByte : Prop :=
  ∀ (pc : Word) (s : State), Memory.wf s.ram = true →
    ((s.reg 13).getLsbD 15 = false → outputEmit pc s = .ok s) ∧
    ((s.reg 13).getLsbD 15 = true → (s.reg 13).getLsbD 14 = false →
      ∃ u, outputEmit pc s = .ok u ∧ u = { s with ram := u.ram } ∧
        ∀ a, ramRead u a = if a = s.reg 14 then (s.reg 13).extractLsb' 0 8 else ramRead s a) ∧
    ((s.reg 13).getLsbD 15 = true → (s.reg 13).getLsbD 14 = true → (s.reg 14 &&& 0x00FF).toNat < 16 →
      ∃ u, outputEmit pc s = .ok u ∧ u = { s with screen := u.screen } ∧
        ∀ i, screenRead u i =
          if i.val = (s.reg 14 &&& 0x00FF).toNat then (s.reg 13).extractLsb' 0 8 else screenRead s i) ∧
    ((s.reg 13).getLsbD 15 = true → (s.reg 13).getLsbD 14 = true → 16 ≤ (s.reg 14 &&& 0x00FF).toNat →
      outputEmit pc s = .error (.screenWriteOutOfRange pc (s.reg 14)))

/-- Bits 13:8 of register 13 have no effect on sampling and emission (10_state.md section 3): a state that differs
only there samples the same, and emits the same or faults the same. -/
def Obligations.UnusedControlBitsChangeNothing : Prop :=
  ∀ (pc : Word) (s : State) (v : Word), v &&& 0xC0FF = s.reg 13 &&& 0xC0FF →
    inputSample (s.setReg 13 v) = (inputSample s).setReg 13 v ∧
    (∀ u, outputEmit pc s = .ok u → outputEmit pc (s.setReg 13 v) = .ok (u.setReg 13 v)) ∧
    ∀ f, outputEmit pc s = .error f → outputEmit pc (s.setReg 13 v) = .error f

/-- A cycle whose emission would write the screen at 16 or more is discarded whole: only the status changes, to
the fault with the fetch address and the executed register 14, and no cycle follows.  Every other cycle
completes.  The fault is the spec's own decision (92_eei_decisions.md D3; log entry 9): the source leaves the case
open. -/
def Obligations.OutOfRangeEmissionDiscardsCycle : Prop :=
  ∀ (i : Instr) (s : State),
    let e := executed i s
    let f := Fault.screenWriteOutOfRange s.pc (e.reg 14)
    (((e.reg 13).getLsbD 15 = true ∧ (e.reg 13).getLsbD 14 = true ∧ 16 ≤ (e.reg 14 &&& 0x00FF).toNat) →
      exec i s = .next { s with status := .faulted f } ∧
      step { s with status := .faulted f } = .next { s with status := .faulted f }) ∧
    (¬ ((e.reg 13).getLsbD 15 = true ∧ (e.reg 13).getLsbD 14 = true ∧ 16 ≤ (e.reg 14 &&& 0x00FF).toNat) →
      ∃ u, exec i s = .next u ∧ u.status = s.status ∧ u.clock = s.clock + 1)

/-! ### The cycle -/

/-- A completed cycle counts one, and beside a host it leaves a notification issued (40_cycle.md section 3).  That the
counter wraps modulo 2^64 is the spec's own decision (92_eei_decisions.md D4; log entry 10); where the notification
is recorded is the model's (log entry 2). -/
def Obligations.CompletedCycleIsCounted : Prop :=
  ∀ (i : Instr) (s : State), EmitsInRange (executed i s) →
    ∃ u, exec i s = .next u ∧ u.clock.toNat = (s.clock.toNat + 1) % 2 ^ 64 ∧ u.status = s.status ∧
      ∀ n : Notification, (n = .quiet ∨ n = .issued) → TakesCycle s → s.current = i →
        Session.step ⟨s, ⟨false, n⟩⟩ = .next ⟨u, ⟨false, .issued⟩⟩

/-- The PC after a completed cycle, for every instruction (R136): the increment is of the fetch address, and never
wraps in a cycle that is due. -/
def Obligations.ProgramCounterAfterCycle : Prop :=
  ∀ (i : Instr) (s : State), EmitsInRange (executed i s) →
    ∃ u, exec i s = .next u ∧
      (i.dest ≠ 15 → u.pc = s.pc + 1) ∧
      (∀ v, i.dest = 15 → operation i (inputSample s) = some v → u.pc = v) ∧
      (i.dest = 15 → operation i (inputSample s) = none → u.pc = s.pc + 1) ∧
      (TakesCycle s → (s.pc + 1).toNat = s.pc.toNat + 1)

/-- `wrote`: always for operations 0 to 9, and for operations 10 to 15 exactly when the test on the tested
register holds (40_cycle.md section 1, 43_conditional.md section 1). -/
def Obligations.WrittenExactlyWhenTestHolds : Prop :=
  (∀ (i : Instr) (t : State), (opCode i.op).toNat < 10 → (operation i t).isSome = true) ∧
  ∀ (d a b : RegIdx) (k : Nibble) (t : State),
    ((operation (.inciz d k b) t).isSome = true ↔ t.reg b = 0x0000) ∧
    ((operation (.decin d k b) t).isSome = true ↔ 0x8000 ≤ (t.reg b).toNat) ∧
    ((operation (.movez d a b) t).isSome = true ↔ t.reg b = 0x0000) ∧
    ((operation (.movex d a b) t).isSome = true ↔ t.reg b ≠ 0x0000) ∧
    ((operation (.movep d a b) t).isSome = true ↔ (t.reg b).toNat < 0x8000) ∧
    ((operation (.moven d a b) t).isSome = true ↔ 0x8000 ≤ (t.reg b).toNat)

/-- The frame of every instruction: a completed cycle writes no register but the destination and the PC, beyond
what sampling does to register 6, and no byte but the one that emission names (40_cycle.md section 1). -/
def Obligations.CycleWritesOneRegisterAndOneByte : Prop :=
  ∀ (i : Instr) (s : State), s.wf = true → EmitsInRange (executed i s) →
    ∃ u, exec i s = .next u ∧
      (∀ r, r ≠ i.dest → r ≠ 15 → r ≠ 6 → u.reg r = s.reg r) ∧
      (i.dest ≠ 6 → u.reg 6 = (inputSample s).reg 6 ∧ (u.reg 6).extractLsb' 8 8 = (s.reg 6).extractLsb' 8 8) ∧
      CycleEffects (executed i s) s u

/-- No step and no host move writes the ROM (20_memory.md). -/
def Obligations.RomIsNeverWritten : Prop :=
  (∀ s u : State, step s = .next u → u.rom = s.rom) ∧
  ∀ m : Session, (∀ n, m.step = .next n → n.core.rom = m.core.rom) ∧
    ∀ move, (hostMove move m).core.rom = m.core.rom

/-- A host move writes no register, memory or counter, and of the status only what a start does: `ready` becomes
`running` (60_exceptions.md).  That a stop and the answers to a notification are acted on by a later step, and so
change no status themselves, is the model's form (log entry 2, DESIGN CHOICE). -/
def Obligations.HostNeverWritesCoreState : Prop :=
  ∀ (move : HostMove) (m : Session),
    (hostMove move m).core.x = m.core.x ∧ (hostMove move m).core.rom = m.core.rom ∧
    (hostMove move m).core.ram = m.core.ram ∧ (hostMove move m).core.screen = m.core.screen ∧
    (hostMove move m).core.clock = m.core.clock ∧
    (hostMove move m).core.status =
      if move = .start ∧ m.core.status = .ready then .running else m.core.status

/-! ### The boundary and the end of a run -/

/-- When the word at the PC decodes to `i` and a cycle is due, a step is `exec i`; nothing stands around it.  Beside a
host with no stop asked for and no notification in the way, the core of the session takes that same step: this clause
rests on 60_exceptions.md section 9, and on the model's form of a session (log entry 2, DESIGN CHOICE) and its reading
that a notification issued and not answered counts as returned (log entry 3, DEDUCED). -/
def Obligations.StepRunsDecodedInstruction : Prop :=
  ∀ (s : State) (i : Instr), s.status = .running → s.pc ≠ 0xFFFF → decodeWord (romRead s s.pc) = i →
    step s = exec i s ∧
    ∀ n : Notification, (n = .quiet ∨ n = .issued) → ∀ u, exec i s = .next u →
      ∃ h, Session.step ⟨s, ⟨false, n⟩⟩ = .next ⟨u, h⟩

/-- A word placed for the next fetch is the instruction of the next step.  `withFetchWord` is the model's own device,
not the spec's: it makes the core running and moves a PC of 0xFFFF to 0x0000 (log entry 5, DESIGN CHOICE). -/
def Obligations.PlacedWordRunsNext : Prop :=
  ∀ (s : State) (w : Word), s.wf = true →
    step (s.withFetchWord 16 w.toNat) = exec (decodeWord w) (s.withFetchWord 16 w.toNat)

/-- The core halts exactly when the PC is 0xFFFF at a boundary: it takes no cycle then, only the status changes,
and no other PC leads to `halted`.  The place of the test is the spec's own decision (92_eei_decisions.md D2; log
entry 11). -/
def Obligations.HaltsExactlyAtHaltPc : Prop :=
  ∀ s : State, s.status = .running →
    (s.pc = 0xFFFF →
      step s = .next { s with status := .halted } ∧
      step { s with status := .halted } = .next { s with status := .halted }) ∧
    (s.pc ≠ 0xFFFF → ∀ u, step s = .next u → u.status ≠ .halted)

/-- A stop request is acted on at the next boundary, where the halt test comes first; every other piece of the
core's state is that after the last completed cycle, and the session stays so.  The order is the spec's own decision
(92_eei_decisions.md D10; log entry 3).  The request may come at any time of the run: right after the start, before
any cycle, it ends the run at once. -/
def Obligations.HostStopEndsRunAtBoundary : Prop :=
  (∀ m : Session, m.core.status = .running → (m.host.notification = .quiet ∨ m.host.notification = .issued) →
    ∃ n, (hostMove .stop m).step = .next n ∧
      n.core = { m.core with status := if m.core.pc = 0xFFFF then .halted else .stopped .hostStop } ∧
      n.step = .next n) ∧
  ∀ s : State, s.status = .ready → s.pc ≠ 0xFFFF →
    ∃ n, (hostMove .stop (hostMove .start ⟨s, .idle⟩)).step = .next n ∧
      n.core = { s with status := .stopped .hostStop } ∧ n.step = .next n

/-- A notification that reports an error ends the run after the cycle, which still counts: the registers,
memories and counter are those the cycle left.  This is the spec's own decision (92_eei_decisions.md D11); that it
comes before the halt test and before a stop is the model's (log entry 3). -/
def Obligations.NotifyErrorEndsRunAfterCycle : Prop :=
  ∀ (s u : State) (n : Notification) (stop : Bool) (err : HostError), TakesCycle s → (n = .quiet ∨ n = .issued) →
    EmitsInRange (executed s.current s) → exec s.current s = .next u →
    u.clock = s.clock + 1 ∧ Session.step ⟨s, ⟨false, n⟩⟩ = .next ⟨u, ⟨false, .issued⟩⟩ ∧
    ∃ v, (hostMove (.notifyFails err) ⟨u, ⟨stop, .issued⟩⟩).step = .next v ∧
      v.core = { u with status := .stopped (.notifyError err) } ∧ v.step = .next v

/-- A notification that has not returned holds the core at the boundary and changes nothing; when it returns,
the run goes on from the same state (93_implementation_defined.md O9; log entry 3). -/
def Obligations.BlockedNotificationHoldsCore : Prop :=
  ∀ m : Session, m.core.status = .running → m.host.notification = .issued →
    (hostMove .notifyBlocks m).step = .next (hostMove .notifyBlocks m) ∧
    (hostMove .notifyBlocks m).core = m.core ∧
    hostMove .notifyReturns (hostMove .notifyBlocks m) = hostMove .notifyReturns m

/-- A core as created is `ready`.  A start moves it to `running` and changes nothing else; a second start does
nothing, and so does a start in any other status; without a start a `ready` core waits.  The statuses are the spec's
own decision (92_eei_decisions.md D12); that the reset state is the `ready` one is the model's (log entry 1). -/
def Obligations.StartRunsReadyCoreOnce : Prop :=
  State.reset.status = .ready ∧ ∀ m : Session,
    (m.core.status = .ready →
      hostMove .start m = { m with core := { m.core with status := .running } } ∧ m.step = .next m) ∧
    hostMove .start (hostMove .start m) = hostMove .start m ∧
    (m.core.status ≠ .ready → hostMove .start m = m)

/-- No step and no host move leaves or changes an end state (60_exceptions.md sections 4 and 10).  That the whole
state is kept is the spec's own decision (92_eei_decisions.md D22); that a step answers the same state is the model's
reading (log entry 11, DEDUCED), and that every host move does nothing there is its choice (log entry 3). -/
def Obligations.EndStatesAreFinal : Prop :=
  ∀ m : Session, m.core.status = .halted ∨ (∃ f, m.core.status = .faulted f) ∨ (∃ r, m.core.status = .stopped r) →
    step m.core = .next m.core ∧ m.step = .next m ∧ ∀ move, hostMove move m = m

/-- The only events that change the status, in every state and session (60_exceptions.md section 2): a halt, the
fault, a host stop, a failed notification, and a start.  Each clause rests on a decision of the spec's own: the halt
on D2 (log entry 11), the fault on D3 (log entry 9), the stop and its order on D10 and the notification's error on
D11 (log entries 2 and 3), the start on D12. -/
def Obligations.StatusChangesOnlyByNamedEvents : Prop :=
  (∀ s u : State, step s = .next u → u.status ≠ s.status →
    s.status = .running ∧
    ((s.pc = 0xFFFF ∧ u = { s with status := .halted }) ∨
      (s.pc ≠ 0xFFFF ∧ (executed s.current s).emitTarget = .outOfRange ∧
        u = { s with status := .faulted (.screenWriteOutOfRange s.pc ((executed s.current s).reg 14)) }))) ∧
  (∀ m n : Session, m.step = .next n → n.core.status ≠ m.core.status →
    m.core.status = .running ∧
    ((∃ e, m.host.notification = .failed e ∧ n.core = { m.core with status := .stopped (.notifyError e) }) ∨
      (m.core.pc ≠ 0xFFFF ∧ m.host.stop = true ∧ n.core = { m.core with status := .stopped .hostStop }) ∨
      step m.core = .next n.core)) ∧
  ∀ (move : HostMove) (m : Session), (hostMove move m).core.status ≠ m.core.status →
    move = .start ∧ m.core.status = .ready ∧ (hostMove move m).core.status = .running

/-! ### The instructions -/

/-- `mov` and `not` (R150, R151): encoding with any ignored field, result, PC, frame and completion. -/
def Obligations.MovAndNotWriteSource : Prop :=
  ∀ (d a : RegIdx) (ignored : Nibble) (s : State), s.wf = true →
    let t := inputSample s
    decodeWord (joinWord ⟨0, nibbleOfReg d, nibbleOfReg a, ignored⟩) = .mov d a ∧
    decodeWord (joinWord ⟨1, nibbleOfReg d, nibbleOfReg a, ignored⟩) = .not d a ∧
    (EmitsInRange (t.setReg d (t.reg a)) →
      ∃ u, exec (.mov d a) s = .next u ∧ WritesRegister d (t.reg a) s u) ∧
    (EmitsInRange (t.setReg d (t.reg a ^^^ 0xFFFF)) →
      ∃ u, exec (.not d a) s = .next u ∧ WritesRegister d (t.reg a ^^^ 0xFFFF) s u)

/-- `and` and `or` (R152, R153). -/
def Obligations.AndAndOrWriteBitwiseResult : Prop :=
  ∀ (d a b : RegIdx) (s : State), s.wf = true →
    let t := inputSample s
    decodeWord (joinWord ⟨2, nibbleOfReg d, nibbleOfReg a, nibbleOfReg b⟩) = .and d a b ∧
    decodeWord (joinWord ⟨3, nibbleOfReg d, nibbleOfReg a, nibbleOfReg b⟩) = .or d a b ∧
    (EmitsInRange (t.setReg d (t.reg a &&& t.reg b)) →
      ∃ u, exec (.and d a b) s = .next u ∧ WritesRegister d (t.reg a &&& t.reg b) s u) ∧
    (EmitsInRange (t.setReg d (t.reg a ||| t.reg b)) →
      ∃ u, exec (.or d a b) s = .next u ∧ WritesRegister d (t.reg a ||| t.reg b) s u)

/-- `add` and `sub` (R154, R155): the sum modulo 2^16, and the difference as `a + ~b + 1`. -/
def Obligations.AddAndSubWriteModularResult : Prop :=
  ∀ (d a b : RegIdx) (s : State), s.wf = true →
    let t := inputSample s
    let sum := BitVec.ofNat 16 (((t.reg a).toNat + (t.reg b).toNat) % 2 ^ 16)
    let difference := t.reg a + (t.reg b ^^^ 0xFFFF) + 1
    decodeWord (joinWord ⟨4, nibbleOfReg d, nibbleOfReg a, nibbleOfReg b⟩) = .add d a b ∧
    decodeWord (joinWord ⟨5, nibbleOfReg d, nibbleOfReg a, nibbleOfReg b⟩) = .sub d a b ∧
    (EmitsInRange (t.setReg d sum) → ∃ u, exec (.add d a b) s = .next u ∧ WritesRegister d sum s u) ∧
    (EmitsInRange (t.setReg d difference) →
      ∃ u, exec (.sub d a b) s = .next u ∧ WritesRegister d difference s u)

/-- `addi` and `subi` (R156, R157): the literal is 0..15, never sign-extended. -/
def Obligations.AddiAndSubiUseUnsignedLiteral : Prop :=
  ∀ (d a : RegIdx) (k : Nibble) (s : State), s.wf = true →
    let t := inputSample s
    let sum := BitVec.ofNat 16 (((t.reg a).toNat + k.toNat) % 2 ^ 16)
    let difference := BitVec.ofNat 16 (((t.reg a).toNat + 2 ^ 16 - k.toNat) % 2 ^ 16)
    decodeWord (joinWord ⟨6, nibbleOfReg d, nibbleOfReg a, k⟩) = .addi d a k ∧
    decodeWord (joinWord ⟨7, nibbleOfReg d, nibbleOfReg a, k⟩) = .subi d a k ∧
    (EmitsInRange (t.setReg d sum) → ∃ u, exec (.addi d a k) s = .next u ∧ WritesRegister d sum s u) ∧
    (EmitsInRange (t.setReg d difference) →
      ∃ u, exec (.subi d a k) s = .next u ∧ WritesRegister d difference s u)

/-- `set` (R170): the literal in the low byte, the high byte 0. -/
def Obligations.SetWritesZeroExtendedLiteral : Prop :=
  ∀ (d : RegIdx) (h l : Nibble) (s : State), s.wf = true →
    let v := BitVec.ofNat 16 (16 * h.toNat + l.toNat)
    decodeWord (joinWord ⟨8, nibbleOfReg d, h, l⟩) = .set d (h ++ l) ∧
    (EmitsInRange ((inputSample s).setReg d v) →
      ∃ u, exec (.set d (h ++ l)) s = .next u ∧ WritesRegister d v s u)

/-- `seth` (R171): the literal in the high byte, the low byte kept; the shift is 16 bits wide. -/
def Obligations.SethWritesHighByte : Prop :=
  ∀ (d : RegIdx) (h l : Nibble) (s : State), s.wf = true →
    let v := BitVec.ofNat 16 (256 * (16 * h.toNat + l.toNat) + ((inputSample s).reg d).toNat % 256)
    decodeWord (joinWord ⟨9, nibbleOfReg d, h, l⟩) = .seth d (h ++ l) ∧
    (EmitsInRange ((inputSample s).setReg d v) →
      ∃ u, exec (.seth d (h ++ l)) s = .next u ∧ WritesRegister d v s u)

/-- `inciz` and `decin` (R180, R181): with the test holding and with it failing. -/
def Obligations.IncizAndDecinCountWhenTestHolds : Prop :=
  ∀ (d : RegIdx) (k : Nibble) (b : RegIdx) (s : State), s.wf = true →
    let t := inputSample s
    let sum := BitVec.ofNat 16 (((t.reg d).toNat + k.toNat) % 2 ^ 16)
    let difference := BitVec.ofNat 16 (((t.reg d).toNat + 2 ^ 16 - k.toNat) % 2 ^ 16)
    decodeWord (joinWord ⟨10, nibbleOfReg d, k, nibbleOfReg b⟩) = .inciz d k b ∧
    decodeWord (joinWord ⟨11, nibbleOfReg d, k, nibbleOfReg b⟩) = .decin d k b ∧
    (t.reg b = 0 → EmitsInRange (t.setReg d sum) →
      ∃ u, exec (.inciz d k b) s = .next u ∧ WritesRegister d sum s u) ∧
    (t.reg b ≠ 0 → EmitsInRange t → ∃ u, exec (.inciz d k b) s = .next u ∧ WritesNothing s u) ∧
    (0x8000 ≤ (t.reg b).toNat → EmitsInRange (t.setReg d difference) →
      ∃ u, exec (.decin d k b) s = .next u ∧ WritesRegister d difference s u) ∧
    ((t.reg b).toNat < 0x8000 → EmitsInRange t → ∃ u, exec (.decin d k b) s = .next u ∧ WritesNothing s u)

/-- `movez` and `movex` (R182, R183): with the test holding and with it failing. -/
def Obligations.MovezAndMovexTestForZero : Prop :=
  ∀ (d a b : RegIdx) (s : State), s.wf = true →
    let t := inputSample s
    decodeWord (joinWord ⟨12, nibbleOfReg d, nibbleOfReg a, nibbleOfReg b⟩) = .movez d a b ∧
    decodeWord (joinWord ⟨13, nibbleOfReg d, nibbleOfReg a, nibbleOfReg b⟩) = .movex d a b ∧
    (t.reg b = 0 → EmitsInRange (t.setReg d (t.reg a)) →
      ∃ u, exec (.movez d a b) s = .next u ∧ WritesRegister d (t.reg a) s u) ∧
    (t.reg b ≠ 0 → EmitsInRange t → ∃ u, exec (.movez d a b) s = .next u ∧ WritesNothing s u) ∧
    (t.reg b ≠ 0 → EmitsInRange (t.setReg d (t.reg a)) →
      ∃ u, exec (.movex d a b) s = .next u ∧ WritesRegister d (t.reg a) s u) ∧
    (t.reg b = 0 → EmitsInRange t → ∃ u, exec (.movex d a b) s = .next u ∧ WritesNothing s u)

/-- `movep` and `moven` (R184, R185): with the test holding and with it failing; zero is not negative. -/
def Obligations.MovepAndMovenTestTheSign : Prop :=
  ∀ (d a b : RegIdx) (s : State), s.wf = true →
    let t := inputSample s
    decodeWord (joinWord ⟨14, nibbleOfReg d, nibbleOfReg a, nibbleOfReg b⟩) = .movep d a b ∧
    decodeWord (joinWord ⟨15, nibbleOfReg d, nibbleOfReg a, nibbleOfReg b⟩) = .moven d a b ∧
    ((t.reg b).toNat < 0x8000 → EmitsInRange (t.setReg d (t.reg a)) →
      ∃ u, exec (.movep d a b) s = .next u ∧ WritesRegister d (t.reg a) s u) ∧
    (0x8000 ≤ (t.reg b).toNat → EmitsInRange t → ∃ u, exec (.movep d a b) s = .next u ∧ WritesNothing s u) ∧
    (0x8000 ≤ (t.reg b).toNat → EmitsInRange (t.setReg d (t.reg a)) →
      ∃ u, exec (.moven d a b) s = .next u ∧ WritesRegister d (t.reg a) s u) ∧
    ((t.reg b).toNat < 0x8000 → EmitsInRange t → ∃ u, exec (.moven d a b) s = .next u ∧ WritesNothing s u)

/-- An instruction that reads register 15 reads its own address: as a source of `mov` and `addi`, and as the
register that `movez` tests (40_cycle.md section 4). -/
def Obligations.ReadingPcGivesOwnAddress : Prop :=
  ∀ (d a : RegIdx) (k : Nibble) (s : State),
    (EmitsInRange (executed (.mov d 15) s) → ∃ u, exec (.mov d 15) s = .next u ∧ u.reg d = s.pc) ∧
    (EmitsInRange (executed (.addi d 15 k) s) →
      ∃ u, exec (.addi d 15 k) s = .next u ∧ u.reg d = s.pc + k.setWidth 16) ∧
    (s.pc ≠ 0 → executed (.movez d a 15) s = inputSample s)

/-! ### Sequences of steps -/

/-- `set` then `seth` builds any constant in any register but 15 (42_immediate.md, 70_reset_and_hazards.md section 3).
For register 6 the second cycle must not sample, since its sampling would overwrite the low byte: bit 15 of register
13 is set at its start. -/
def Obligations.SetThenSethBuildsConstant : Prop :=
  ∀ (d : RegIdx) (c : Word) (s u : State), d ≠ 15 →
    EmitsInRange (executed (.set d (c.extractLsb' 0 8)) s) → exec (.set d (c.extractLsb' 0 8)) s = .next u →
    EmitsInRange (executed (.seth d (c.extractLsb' 8 8)) u) → (d = 6 → (u.reg 13).getLsbD 15 = true) →
    ∃ v, exec (.seth d (c.extractLsb' 8 8)) u = .next v ∧ u.reg d = c &&& 0x00FF ∧ v.reg d = c ∧ v.pc = s.pc + 2

/-- Any instruction that writes its own address to register 15 runs again in every later cycle, with no halt
(40_cycle.md section 4): its cycle leaves the PC, every register but 6 and the ROM; the next cycle is due again, of
the same instruction, which again jumps to itself; and with canonical memories, from then on `n` more steps change
the counter alone, by `n`.  Every form is covered, a conditional one while its test holds. -/
def Obligations.JumpToOwnAddressNeverHalts : Prop :=
  ∀ s : State, JumpsToItself s →
    ∃ t, step s = .next t ∧ JumpsToItself t ∧ t.current = s.current ∧ t.pc = s.pc ∧ t.clock = s.clock + 1 ∧
      (∀ r, r ≠ 6 → t.reg r = s.reg r) ∧ t.rom = s.rom ∧
      (s.wf = true →
        ∀ n : Nat, Host.Core.run Sys2Proof.core n t = .next { t with clock := t.clock + BitVec.ofNat 64 n })

/-- A run over words that never name register 15 as destination goes straight on, one address and one count a
cycle, up to the halt PC, where it halts; or it stops on the way at a cycle whose emission has no location, faulted
at that cycle's address with that cycle discarded (70_reset_and_hazards.md section 3).  The halt rests on the spec's
own decision D2 (log entry 11), the fault on D3 (log entry 9). -/
def Obligations.StraightLineRunAdvances : Prop :=
  ∀ (n : Nat) (s : State), TakesCycle s → s.pc.toNat + n ≤ 65535 →
    (∀ k, k < n → (decodeWord (romRead s (s.pc + BitVec.ofNat 16 k))).dest ≠ 15) →
    ∃ u, Host.Core.run Sys2Proof.core n s = .next u ∧
      ((u.status = .running ∧ u.pc.toNat = s.pc.toNat + n ∧ u.clock = s.clock + BitVec.ofNat 64 n ∧
        (u.pc = 0xFFFF → step u = .next { u with status := .halted })) ∨
      ∃ k v, k < n ∧ Host.Core.run Sys2Proof.core k s = .next v ∧ TakesCycle v ∧ v.pc.toNat = s.pc.toNat + k ∧
        v.clock = s.clock + BitVec.ofNat 64 k ∧ (executed v.current v).emitTarget = .outOfRange ∧
        u = { v with status := .faulted (.screenWriteOutOfRange v.pc ((executed v.current v).reg 14)) })

/-! ### The load and the toolchain -/

/-- A load that meets only good records up to an end-of-file record gives the ROM whose word at each address is
that of the last data record with the address, and 0 where there is none; records of other types are skipped, and
nothing after the end-of-file record is read (70_reset_and_hazards.md section 2). -/
def Obligations.LoadedRomHoldsLastRecord : Prop :=
  ∀ (records : List Record) (eof : Record) (rest : List (Except StreamError Record)),
    (∀ r ∈ records, r.type ≠ .endOfFile ∧ (r.type = .data → r.data.length = 2 ∧ r.address.toNat < 65535)) →
    eof.type = .endOfFile →
    ∃ rom, loadRom (records.map Except.ok ++ Except.ok eof :: rest) = .ok rom ∧ romWf rom = true ∧
      ∀ a : Word, sparseRead rom a.toNat =
        match (records.filter fun r => decide (r.type = .data ∧ r.address = a)).getLast? with
        | some r => ((r.data.getD 0 0).setWidth 16 <<< 8) ||| (r.data.getD 1 0).setWidth 16
        | none => 0

/-- A load stops at the first error, with its kind and its one-based record number, and gives no core
(70_reset_and_hazards.md section 2).  That a missing end-of-file record is an error is the spec's own decision
(92_eei_decisions.md D13); the record number it reports is the model's (log entry 6). -/
def Obligations.LoadStopsAtFirstError : Prop :=
  ∀ (records : List Record) (bad : Record) (e : StreamError) (rest : List (Except StreamError Record)),
    (∀ r ∈ records, r.type ≠ .endOfFile ∧ (r.type = .data → r.data.length = 2 ∧ r.address.toNat < 65535)) →
    (bad.type = .data → bad.data.length ≠ 2 →
      boot (records.map Except.ok ++ Except.ok bad :: rest) = .error ⟨.malformedRecordSize, records.length + 1⟩) ∧
    (bad.type = .data → bad.data.length = 2 → 65535 ≤ bad.address.toNat →
      boot (records.map Except.ok ++ Except.ok bad :: rest) = .error ⟨.addressOutOfRange, records.length + 1⟩) ∧
    boot (records.map Except.ok ++ Except.error e :: rest) = .error ⟨.stream e, records.length + 1⟩ ∧
    boot (records.map Except.ok) = .error ⟨.missingEndOfFile, records.length + 1⟩

/-- Reading the I8HEX text of a list of records gives them back.  The record form is R241's, whose type numbers
and checksum are from general knowledge (log entry 6). -/
def Obligations.ImageTextReadsBack : Prop :=
  ∀ records : List Record,
    (∀ r ∈ records, r.data.length < 256 ∧ ∀ code, r.type = .other code → code ≠ 0 ∧ code ≠ 1) →
    readImage (writeImage records) = records.map Except.ok

/-- Assembling and then loading a list of words puts word `k` at ROM address `k`, and 0 after the last; the core
is then at the entry point with the first word its first fetch (30_encoding.md section 4).  That the assembler
counts words is the spec's own decision (92_eei_decisions.md D14), and so is the status (D12); the I8HEX text
between the two is PRESUMED (log entry 6). -/
def Obligations.AssembledFileLoadsInOrder : Prop :=
  ∀ words : List Word, words.length ≤ 65535 →
    ∃ s, boot (readImage (writeImage (recordsFrom 0 words))) = .ok s ∧ s.pc = 0 ∧ s.status = .ready ∧
      ∀ a : Word, romRead s a = words.getD a.toNat 0

/-- A word assembles back from its disassembly, but for the ignored field of `mov` and `not`, which has no
spelling (30_encoding.md section 4; log entry 7). -/
def Obligations.DisassembledWordAssemblesBack : Prop :=
  ∀ (line : Nat) (w : Word),
    ((2 ≤ (splitWord w).op.toNat ∨ (splitWord w).b = 0) → assembleLine line (disassemble w) = .ok (some w)) ∧
    ((splitWord w).op.toNat < 2 → disassemble w = disassemble (w &&& 0xFFF0))

/-- The mnemonic table (R102): the 23 spellings, each with its opcode, which is that of every word assembled from it;
and any first token that is none of the 23 is `UnknownMnemonic`, unless it begins a comment. -/
def Obligations.MnemonicSpellings : Prop :=
  let spellings : List (String × Nibble) :=
    [("mov", 0), ("move", 0), ("not", 1), ("and", 2), ("or", 3), ("add", 4), ("sub", 5), ("addi", 6), ("subi", 7),
      ("set", 8), ("seth", 9), ("incz", 10), ("inciz", 10), ("decn", 11), ("decin", 11), ("movz", 12), ("movez", 12),
      ("movx", 13), ("movex", 13), ("movp", 14), ("movep", 14), ("movn", 15), ("moven", 15)]
  (∀ entry ∈ spellings, lookupToken mnemonicTable entry.1.toList = some (opOfNibble entry.2) ∧
    ∀ (n : Nat) (operands : List (List Char)),
      (∀ r, assembleTokens n (entry.1.toList :: operands) = .ok r → ∃ w, r = some w ∧ (splitWord w).op = entry.2) ∧
      ∀ e, assembleTokens n (entry.1.toList :: operands) = .error e → e.kind ≠ .unknownMnemonic) ∧
  ∀ (n : Nat) (name : List Char) (operands : List (List Char)),
    (name.head? = some '#' → assembleTokens n (name :: operands) = .ok none) ∧
    ((∀ entry ∈ spellings, name ≠ entry.1.toList) → name.head? ≠ some '#' →
      assembleTokens n (name :: operands) = .error ⟨.unknownMnemonic, n, name⟩)

/-- The operand count must match exactly (30_encoding.md section 4).  That a wrong count is reported whatever the
operands are, and with the mnemonic as the offending token, is the model's choice (log entry 7, DESIGN CHOICE). -/
def Obligations.OperandCountMustMatch : Prop :=
  ∀ (n : Nat) (name : List Char) (op : Op) (operands : List (List Char)),
    lookupToken mnemonicTable name = some op → name.head? ≠ some '#' →
    (operands.length ≠ (operandKinds op).length →
      assembleTokens n (name :: operands) = .error ⟨.wrongOperandCount, n, name⟩) ∧
    (operands.length = (operandKinds op).length →
      ∀ e, assembleTokens n (name :: operands) = .error e → e.kind = .unknownRegister ∨ e.kind = .badLiteral)

/-- The `assemble` command stops at the first error and exits non-zero, and exits 0 when there is none, with the words
of the lines in order (30_encoding.md section 4).  That an I/O error is reported at the line it is met at, one past
the last line for the image, and with no token, is the model's choice (log entry 7, DESIGN CHOICE). -/
def Obligations.AssembleStopsAtFirstError : Prop :=
  ∀ (good : List (List Char)) (words : List (Option Word)) (bad : List Char) (e : AsmError) (rest : List SourceLine)
    (written : Bool),
    good.map (assembleLine 1) = words.map Except.ok → assembleLine (good.length + 1) bad = .error e →
    assembleCommand (good.map .text ++ .text bad :: rest) written = .error e ∧ e.line = good.length + 1 ∧
    assembleCommand (good.map .text ++ .ioError :: rest) written = .error ⟨.ioError, good.length + 1, []⟩ ∧
    assembleCommand (good.map .text) false = .error ⟨.ioError, good.length + 1, []⟩ ∧
    assembleCommand (good.map .text) true = .ok (writeImage (recordsFrom 0 (words.filterMap id))) ∧
    (∀ r, assembleExit r = .zero ↔ ∃ text, r = .ok text)

/-! ### The core beside its host -/

/-- Every step of a session and every host move keeps the session's invariant.  It rests on the decisions that
`ReachableStatesMeetInvariant` names (D2, D3, D10 to D12; log entries 1, 2, 3, 9 and 11). -/
def Obligations.SessionStepAndHostMovesKeepInvariant : Prop :=
  ∀ m : Session, m.Inv → (∀ n, m.step = .next n → n.Inv) ∧ ∀ move, (hostMove move m).Inv

/-- Beside a host that neither stops it nor objects to a notification, a session of any number of steps is the run of
the core alone, and the host is as silent after it (60_exceptions.md section 9: a claim about a run holds only for
runs in which the host does nothing else).  It rests on the model's form of a session (log entry 2, DESIGN CHOICE) and
its reading that a notification issued and not answered counts as returned (log entry 3, DEDUCED). -/
def Obligations.SilentHostLeavesRunOfCore : Prop :=
  ∀ (n : Nat) (m : Session), m.host.stop = false → (m.host.notification = .quiet ∨ m.host.notification = .issued) →
    ∃ u k, m.steps n = .next ⟨u, ⟨false, k⟩⟩ ∧ (k = .quiet ∨ k = .issued) ∧
      Host.Core.run Sys2Proof.core n m.core = .next u
end

