-- ==== Sys2Proof/Laws/State.lean ====
section
/-! SUPPORT. One lemma for each field under each update of the state, so that no later proof unfolds a record
update. -/

namespace Sys2Proof.Machine

/-! ### Registers -/

@[simp] theorem setReg_rom (s : State) (r : RegIdx) (v : Word) : (s.setReg r v).rom = s.rom := rfl
@[simp] theorem setReg_ram (s : State) (r : RegIdx) (v : Word) : (s.setReg r v).ram = s.ram := rfl
@[simp] theorem setReg_screen (s : State) (r : RegIdx) (v : Word) : (s.setReg r v).screen = s.screen := rfl
@[simp] theorem setReg_clock (s : State) (r : RegIdx) (v : Word) : (s.setReg r v).clock = s.clock := rfl
@[simp] theorem setReg_status (s : State) (r : RegIdx) (v : Word) : (s.setReg r v).status = s.status := rfl

/-- Reading a register after a write: no register is special (R21). -/
@[simp] theorem reg_setReg (s : State) (r q : RegIdx) (v : Word) :
    (s.setReg r v).reg q = if q = r then v else s.reg q := by
  simp [State.setReg, State.reg, Vector.getElem_set, Fin.ext_iff, eq_comm]

/-- Two states with the same registers and the same other fields are equal. -/
theorem state_ext_reg {s t : State} (hx : ∀ r, s.reg r = t.reg r) (hrom : s.rom = t.rom) (hram : s.ram = t.ram)
    (hscreen : s.screen = t.screen) (hclock : s.clock = t.clock) (hstatus : s.status = t.status) : s = t := by
  have hxs : s.x = t.x := Vector.ext fun i hi => hx ⟨i, hi⟩
  cases s
  cases t
  simp_all

/-- Writing a register with the value it holds changes nothing. -/
theorem setReg_reg_self (s : State) (r : RegIdx) : s.setReg r (s.reg r) = s := by
  refine state_ext_reg (fun q => ?_) rfl rfl rfl rfl rfl
  by_cases h : q = r <;> simp [h]

/-! ### Memories -/

@[simp] theorem ramWrite_reg (s : State) (a : Word) (v : Byte) (r : RegIdx) : (ramWrite s a v).reg r = s.reg r := rfl
@[simp] theorem ramWrite_rom (s : State) (a : Word) (v : Byte) : (ramWrite s a v).rom = s.rom := rfl
@[simp] theorem ramWrite_screen (s : State) (a : Word) (v : Byte) : (ramWrite s a v).screen = s.screen := rfl
@[simp] theorem ramWrite_clock (s : State) (a : Word) (v : Byte) : (ramWrite s a v).clock = s.clock := rfl
@[simp] theorem ramWrite_status (s : State) (a : Word) (v : Byte) : (ramWrite s a v).status = s.status := rfl

@[simp] theorem screenWrite_reg (s : State) (i : Fin 16) (v : Byte) (r : RegIdx) :
    (screenWrite s i v).reg r = s.reg r := rfl
@[simp] theorem screenWrite_rom (s : State) (i : Fin 16) (v : Byte) : (screenWrite s i v).rom = s.rom := rfl
@[simp] theorem screenWrite_ram (s : State) (i : Fin 16) (v : Byte) : (screenWrite s i v).ram = s.ram := rfl
@[simp] theorem screenWrite_clock (s : State) (i : Fin 16) (v : Byte) : (screenWrite s i v).clock = s.clock := rfl
@[simp] theorem screenWrite_status (s : State) (i : Fin 16) (v : Byte) : (screenWrite s i v).status = s.status := rfl

/-! ### The end of a cycle, the fault, the start and the end of a run -/

@[simp] theorem countCycle_reg (s : State) (r : RegIdx) : (countCycle s).reg r = s.reg r := rfl
@[simp] theorem countCycle_rom (s : State) : (countCycle s).rom = s.rom := rfl
@[simp] theorem countCycle_ram (s : State) : (countCycle s).ram = s.ram := rfl
@[simp] theorem countCycle_screen (s : State) : (countCycle s).screen = s.screen := rfl
@[simp] theorem countCycle_clock (s : State) : (countCycle s).clock = s.clock + 1 := rfl
@[simp] theorem countCycle_status (s : State) : (countCycle s).status = s.status := rfl

@[simp] theorem takeFault_reg (f : Fault) (s : State) (r : RegIdx) : (takeFault f s).reg r = s.reg r := rfl
@[simp] theorem takeFault_rom (f : Fault) (s : State) : (takeFault f s).rom = s.rom := rfl
@[simp] theorem takeFault_ram (f : Fault) (s : State) : (takeFault f s).ram = s.ram := rfl
@[simp] theorem takeFault_screen (f : Fault) (s : State) : (takeFault f s).screen = s.screen := rfl
@[simp] theorem takeFault_clock (f : Fault) (s : State) : (takeFault f s).clock = s.clock := rfl
@[simp] theorem takeFault_status (f : Fault) (s : State) : (takeFault f s).status = .faulted f := rfl

/-- A start writes the status only, and only of a core that is ready (R216). -/
theorem startCore_cases (s : State) :
    (s.status = .ready ∧ startCore s = { s with status := .running }) ∨ (s.status ≠ .ready ∧ startCore s = s) := by
  unfold startCore
  cases h : s.status <;> simp

@[simp] theorem startCore_x (s : State) : (startCore s).x = s.x := by
  obtain ⟨-, e⟩ | ⟨-, e⟩ := startCore_cases s <;> rw [e]
@[simp] theorem startCore_rom (s : State) : (startCore s).rom = s.rom := by
  obtain ⟨-, e⟩ | ⟨-, e⟩ := startCore_cases s <;> rw [e]
@[simp] theorem startCore_ram (s : State) : (startCore s).ram = s.ram := by
  obtain ⟨-, e⟩ | ⟨-, e⟩ := startCore_cases s <;> rw [e]
@[simp] theorem startCore_screen (s : State) : (startCore s).screen = s.screen := by
  obtain ⟨-, e⟩ | ⟨-, e⟩ := startCore_cases s <;> rw [e]
@[simp] theorem startCore_clock (s : State) : (startCore s).clock = s.clock := by
  obtain ⟨-, e⟩ | ⟨-, e⟩ := startCore_cases s <;> rw [e]

@[simp] theorem endRun_reg (st : Status) (s : State) (r : RegIdx) : (endRun st s).reg r = s.reg r := rfl
@[simp] theorem endRun_rom (st : Status) (s : State) : (endRun st s).rom = s.rom := rfl
@[simp] theorem endRun_ram (st : Status) (s : State) : (endRun st s).ram = s.ram := rfl
@[simp] theorem endRun_screen (st : Status) (s : State) : (endRun st s).screen = s.screen := rfl
@[simp] theorem endRun_clock (st : Status) (s : State) : (endRun st s).clock = s.clock := rfl
@[simp] theorem endRun_status (st : Status) (s : State) : (endRun st s).status = st := rfl

end Sys2Proof.Machine
end

