-- ==== Sys2Proof/Laws/Memory.lean ====
section
/-! SUPPORT. The laws of the sparse memories: a read after a write, and the canonical form. -/

namespace Sys2Proof.Machine

/-- Below the first listed address everything is unlisted. -/
theorem sparseRead_of_lt {w : Nat} {least a : Nat} {m : Sparse w} (h : sparseRising least m = true) (ha : a < least) :
    sparseRead m a = unlisted w := by
  induction m generalizing least with
  | nil => rfl
  | cons cell rest ih =>
    obtain ⟨k, v⟩ := cell
    simp only [sparseRising, Bool.and_eq_true, decide_eq_true_eq] at h
    obtain ⟨⟨hk, -⟩, hrest⟩ := h
    rw [sparseRead, if_neg (by omega), ih hrest (by omega)]

/-- A read after a write, in a memory in canonical form. -/
theorem sparseRead_sparseWrite {w : Nat} {least : Nat} {m : Sparse w} (h : sparseRising least m = true) (a b : Nat)
    (v : BitVec w) : sparseRead (sparseWrite m a v) b = if b = a then v else sparseRead m b := by
  induction m generalizing least with
  | nil =>
    by_cases hv : v = unlisted w
    · simp [sparseWrite, sparseRead, hv]
    · simp [sparseWrite, sparseRead, hv, eq_comm]
  | cons cell rest ih =>
    obtain ⟨k, u⟩ := cell
    simp only [sparseRising, Bool.and_eq_true, decide_eq_true_eq] at h
    obtain ⟨⟨-, -⟩, hrest⟩ := h
    have hlow := fun b (hb : b < k + 1) => sparseRead_of_lt hrest hb
    rcases Nat.lt_trichotomy a k with hak | rfl | hka
    · by_cases hv : v = unlisted w
      · rcases eq_or_ne b a with rfl | hb
        · simp [sparseWrite, hak, hv, sparseRead, hlow b (by omega), Nat.ne_of_gt hak]
        · simp [sparseWrite, hak, hv, sparseRead, hb]
      · rcases eq_or_ne b a with rfl | hb
        · simp [sparseWrite, hak, hv, sparseRead]
        · simp [sparseWrite, hak, hv, sparseRead, hb, hb.symm]
    · rcases eq_or_ne b a with rfl | hb
      · by_cases hv : v = unlisted w
        · simp [sparseWrite, hv, hlow b (by omega)]
        · simp [sparseWrite, hv, sparseRead]
      · by_cases hv : v = unlisted w
        · simp [sparseWrite, hv, hb, sparseRead, hb.symm]
        · simp [sparseWrite, hv, hb, sparseRead, hb.symm]
    · have h1 : ¬ a < k := by omega
      have h2 : a ≠ k := by omega
      simp only [sparseWrite, if_neg h1, if_neg h2, sparseRead, ih hrest]
      rcases eq_or_ne k b with rfl | hkb
      · simp [h2.symm]
      · simp [hkb]

/-- A write keeps the addresses rising. -/
theorem sparseRising_sparseWrite {w : Nat} {least : Nat} {m : Sparse w} (h : sparseRising least m = true) {a : Nat}
    (ha : least ≤ a) (v : BitVec w) : sparseRising least (sparseWrite m a v) = true := by
  induction m generalizing least with
  | nil =>
    by_cases hv : v = unlisted w <;> simp [sparseWrite, sparseRising, hv, ha]
  | cons cell rest ih =>
    obtain ⟨k, u⟩ := cell
    have hall := h
    simp only [sparseRising, Bool.and_eq_true, decide_eq_true_eq] at h
    obtain ⟨⟨hk, hu⟩, hrest⟩ := h
    rcases Nat.lt_trichotomy a k with hak | rfl | hka
    · by_cases hv : v = unlisted w
      · simpa [sparseWrite, hak, hv] using hall
      · have : a + 1 ≤ k := hak
        simp_all [sparseWrite, sparseRising]
    · by_cases hv : v = unlisted w
      · have hmono : ∀ {l l' : Nat} {n : Sparse w}, l ≤ l' → sparseRising l' n = true → sparseRising l n = true := by
          intro l l' n hl hn
          cases n with
          | nil => rfl
          | cons c r =>
            obtain ⟨c1, c2⟩ := c
            simp only [sparseRising, Bool.and_eq_true, decide_eq_true_eq] at hn ⊢
            exact ⟨⟨by omega, hn.1.2⟩, hn.2⟩
        simpa [sparseWrite, hv] using hmono (by omega) hrest
      · simp_all [sparseWrite, sparseRising]
    · have h1 : ¬ a < k := by omega
      have h2 : a ≠ k := by omega
      simp only [sparseWrite, if_neg h1, if_neg h2, sparseRising, Bool.and_eq_true, decide_eq_true_eq]
      exact ⟨⟨hk, hu⟩, ih hrest (by omega)⟩

/-- A write within the size keeps every address within the size. -/
theorem all_lt_sparseWrite {w : Nat} {size : Nat} {m : Sparse w} (h : (m.all fun c => decide (c.1 < size)) = true)
    {a : Nat} (ha : a < size) (v : BitVec w) :
    ((sparseWrite m a v).all fun c => decide (c.1 < size)) = true := by
  induction m with
  | nil => by_cases hv : v = unlisted w <;> simp [sparseWrite, hv, ha]
  | cons cell rest ih =>
    obtain ⟨k, u⟩ := cell
    simp only [List.all_cons, Bool.and_eq_true] at h
    have ih' := ih h.2
    have hd : decide (a < size) = true := decide_eq_true ha
    rcases Nat.lt_trichotomy a k with hak | rfl | hka
    · by_cases hv : v = unlisted w
      · simp only [sparseWrite, if_pos hak, if_pos hv, List.all_cons, Bool.and_eq_true]
        exact h
      · simp only [sparseWrite, if_pos hak, if_neg hv, List.all_cons, Bool.and_eq_true]
        exact ⟨hd, h⟩
    · by_cases hv : v = unlisted w
      · simpa only [sparseWrite, lt_irrefl, if_false, if_true, if_pos hv] using h.2
      · simp only [sparseWrite, lt_irrefl, if_false, if_true, if_neg hv, List.all_cons, Bool.and_eq_true]
        exact ⟨hd, h.2⟩
    · have h1 : ¬ a < k := by omega
      have h2 : a ≠ k := by omega
      simp only [sparseWrite, if_neg h1, if_neg h2, List.all_cons, Bool.and_eq_true]
      exact ⟨h.1, ih'⟩

/-- Every write within the size keeps the canonical form. -/
theorem sparseWf_sparseWrite {w : Nat} {size : Nat} {m : Sparse w} (h : sparseWf size m = true) {a : Nat}
    (ha : a < size) (v : BitVec w) : sparseWf size (sparseWrite m a v) = true := by
  simp only [sparseWf, Bool.and_eq_true] at h ⊢
  exact ⟨sparseRising_sparseWrite h.1 (Nat.zero_le a) v, all_lt_sparseWrite h.2 ha v⟩

/-- A canonical memory is determined by what it reads. -/
theorem sparse_ext {w : Nat} {least : Nat} {m n : Sparse w} (hm : sparseRising least m = true)
    (hn : sparseRising least n = true) (h : ∀ a, sparseRead m a = sparseRead n a) : m = n := by
  induction m generalizing least n with
  | nil =>
    cases n with
    | nil => rfl
    | cons c r =>
      obtain ⟨k, v⟩ := c
      simp only [sparseRising, Bool.and_eq_true, Bool.not_eq_true', decide_eq_false_iff_not] at hn
      exact absurd (by simpa [sparseRead] using (h k).symm) hn.1.2
  | cons cell rest ih =>
    obtain ⟨k, u⟩ := cell
    simp only [sparseRising, Bool.and_eq_true, Bool.not_eq_true', decide_eq_false_iff_not, decide_eq_true_eq] at hm
    cases n with
    | nil => exact absurd (by simpa [sparseRead] using h k) hm.1.2
    | cons c r =>
      obtain ⟨j, v⟩ := c
      simp only [sparseRising, Bool.and_eq_true, Bool.not_eq_true', decide_eq_false_iff_not, decide_eq_true_eq] at hn
      have hrm := fun b (hb : b < k + 1) => sparseRead_of_lt hm.2 hb
      have hrn := fun b (hb : b < j + 1) => sparseRead_of_lt hn.2 hb
      rcases Nat.lt_trichotomy k j with hkj | rfl | hjk
      · have := h k
        rw [sparseRead, if_pos rfl, sparseRead, if_neg (by omega), hrn k (by omega)] at this
        exact absurd this hm.1.2
      · have huv : u = v := by simpa [sparseRead] using h k
        have hrest : rest = r := by
          refine ih hm.2 hn.2 fun a => ?_
          rcases eq_or_ne k a with rfl | hka
          · rw [hrm k (by omega), hrn k (by omega)]
          · simpa [sparseRead, hka] using h a
        rw [huv, hrest]
      · have := h j
        rw [sparseRead, if_neg (by omega), hrm j (by omega), sparseRead, if_pos rfl] at this
        exact absurd this.symm hn.1.2

/-! ### The memories of a state -/

/-- The canonical form of a RAM gives that of its list. -/
theorem Memory.rising {m : List Host.Cell} (h : Memory.wf m = true) : sparseRising 0 m = true := by
  simp only [Memory.wf, sparseWf, Bool.and_eq_true] at h
  exact h.1

/-- A RAM read after a RAM write (R66, R70). -/
theorem ramRead_ramWrite {s : State} (h : Memory.wf s.ram = true) (a b : Word) (v : Byte) :
    ramRead (ramWrite s a v) b = if b = a then v else ramRead s b := by
  simp only [ramRead, ramWrite, sparseRead_sparseWrite (Memory.rising h), BitVec.toNat_inj]

/-- A RAM write keeps the canonical form. -/
theorem ramWrite_wf {s : State} (h : Memory.wf s.ram = true) (a : Word) (v : Byte) :
    Memory.wf (ramWrite s a v).ram = true :=
  sparseWf_sparseWrite h a.isLt v

/-- A word stored below 65 535 keeps the canonical form of a ROM. -/
theorem romWf_sparseWrite {m : Sparse 16} (h : romWf m = true) {a : Nat} (ha : a < romWords) (v : Word) :
    romWf (sparseWrite m a v) = true :=
  sparseWf_sparseWrite h ha v

/-- A screen read after a screen write. -/
theorem screenRead_screenWrite (s : State) (i j : Fin 16) (v : Byte) :
    screenRead (screenWrite s i v) j = if j = i then v else screenRead s j := by
  simp [screenRead, screenWrite, Vector.getElem_set, Fin.ext_iff, eq_comm]

/-- The reset state's memories have the canonical form. -/
theorem reset_wf : State.reset.wf = true := by decide

end Sys2Proof.Machine
end

