-- ==== Sys2Proof/Laws/Cycle.lean ====
section
/-! SUPPORT. What each shared operation of a cycle can do, said once. -/

namespace Sys2Proof.Machine

/-! ### Input sampling -/

/-- Sampling changes at most register 6. -/
theorem inputSample_cases (s : State) :
    (sampledByte s = none ∧ inputSample s = s) ∨
    ∃ byte, sampledByte s = some byte ∧ inputSample s = s.setReg inReg (withLowByte (s.reg inReg) byte) := by
  unfold inputSample
  cases h : sampledByte s with
  | none => exact .inl ⟨rfl, rfl⟩
  | some byte => exact .inr ⟨byte, rfl, rfl⟩

@[simp] theorem inputSample_reg_of_ne (s : State) {r : RegIdx} (h : r ≠ inReg) : (inputSample s).reg r = s.reg r := by
  obtain ⟨-, e⟩ | ⟨byte, -, e⟩ := inputSample_cases s <;> simp [e, h]

@[simp] theorem inputSample_rom (s : State) : (inputSample s).rom = s.rom := by
  obtain ⟨-, e⟩ | ⟨byte, -, e⟩ := inputSample_cases s <;> simp [e]

@[simp] theorem inputSample_ram (s : State) : (inputSample s).ram = s.ram := by
  obtain ⟨-, e⟩ | ⟨byte, -, e⟩ := inputSample_cases s <;> simp [e]

@[simp] theorem inputSample_screen (s : State) : (inputSample s).screen = s.screen := by
  obtain ⟨-, e⟩ | ⟨byte, -, e⟩ := inputSample_cases s <;> simp [e]

@[simp] theorem inputSample_clock (s : State) : (inputSample s).clock = s.clock := by
  obtain ⟨-, e⟩ | ⟨byte, -, e⟩ := inputSample_cases s <;> simp [e]

@[simp] theorem inputSample_status (s : State) : (inputSample s).status = s.status := by
  obtain ⟨-, e⟩ | ⟨byte, -, e⟩ := inputSample_cases s <;> simp [e]

/-- Sampling leaves the PC, so the fetch after it is at the PC of the start of the cycle. -/
@[simp] theorem inputSample_pc (s : State) : (inputSample s).pc = s.pc :=
  inputSample_reg_of_ne s (by decide)

theorem fetchWord_eq (s : State) : fetchWord s = romRead s s.pc := by
  simp [fetchWord, romRead]

/-! ### Write-back -/

@[simp] theorem writeBack_some (dest : RegIdx) (v : Word) (s : State) : writeBack dest (some v) s = s.setReg dest v := rfl
@[simp] theorem writeBack_none (dest : RegIdx) (s : State) : writeBack dest none s = s := rfl

theorem writeBack_cases (dest : RegIdx) (result : Option Word) (s : State) :
    (result = none ∧ writeBack dest result s = s) ∨ ∃ v, result = some v ∧ writeBack dest result s = s.setReg dest v := by
  cases result with
  | none => exact .inl ⟨rfl, rfl⟩
  | some v => exact .inr ⟨v, rfl, rfl⟩

@[simp] theorem writeBack_reg_of_ne {dest r : RegIdx} (h : r ≠ dest) (result : Option Word) (s : State) :
    (writeBack dest result s).reg r = s.reg r := by
  cases result <;> simp [h]

@[simp] theorem writeBack_rom (dest : RegIdx) (result : Option Word) (s : State) :
    (writeBack dest result s).rom = s.rom := by cases result <;> simp
@[simp] theorem writeBack_ram (dest : RegIdx) (result : Option Word) (s : State) :
    (writeBack dest result s).ram = s.ram := by cases result <;> simp
@[simp] theorem writeBack_screen (dest : RegIdx) (result : Option Word) (s : State) :
    (writeBack dest result s).screen = s.screen := by cases result <;> simp
@[simp] theorem writeBack_clock (dest : RegIdx) (result : Option Word) (s : State) :
    (writeBack dest result s).clock = s.clock := by cases result <;> simp
@[simp] theorem writeBack_status (dest : RegIdx) (result : Option Word) (s : State) :
    (writeBack dest result s).status = s.status := by cases result <;> simp

/-! ### Output emission -/

/-- When emission runs over the end of the screen: both control bits set and an index of 16 or more (R202). -/
theorem emitTarget_eq_outOfRange (x13 x14 : Word) :
    emitTarget x13 x14 = .outOfRange ↔
      bit15 x13 = true ∧ bit14 x13 = true ∧ 16 ≤ (x14 &&& screenWriteMask).toNat := by
  unfold emitTarget
  by_cases h15 : bit15 x13 = true <;> by_cases h14 : bit14 x13 = true <;> simp [h15, h14]

/-- Emission with a location, or off, changes no register and nothing but that location; without one it raises
the fault. -/
theorem outputEmit_cases (pc : Word) (e : State) :
    (e.emitTarget = .outOfRange ∧ outputEmit pc e = .error (.screenWriteOutOfRange pc (e.reg out1Reg))) ∨
    (EmitsInRange e ∧ ((e.emitTarget = .off ∧ outputEmit pc e = .ok e) ∨
      (∃ a, e.emitTarget = .ram a ∧ outputEmit pc e = .ok (ramWrite e a (lowByte (e.reg out0Reg)))) ∨
      ∃ i, e.emitTarget = .screen i ∧ outputEmit pc e = .ok (screenWrite e i (lowByte (e.reg out0Reg))))) := by
  unfold outputEmit EmitsInRange
  cases h : e.emitTarget with
  | off => exact .inr ⟨by simp, .inl ⟨rfl, rfl⟩⟩
  | ram a => exact .inr ⟨by simp, .inr (.inl ⟨a, rfl, rfl⟩)⟩
  | screen i => exact .inr ⟨by simp, .inr (.inr ⟨i, rfl, rfl⟩)⟩
  | outOfRange => exact .inl ⟨rfl, rfl⟩

/-- Emission in range: it completes, and this is all it does. -/
theorem outputEmit_completes {pc : Word} {e : State} (hr : EmitsInRange e) :
    ∃ u, outputEmit pc e = .ok u ∧ (∀ r, u.reg r = e.reg r) ∧ u.rom = e.rom ∧ u.clock = e.clock ∧
      u.status = e.status ∧
      (u.ram = e.ram ∨ ∃ a, e.emitTarget = .ram a ∧ u.ram = (ramWrite e a (lowByte (e.reg out0Reg))).ram) ∧
      (Memory.wf e.ram = true → ∀ a, ramRead u a =
        if e.emitTarget = .ram a then lowByte (e.reg out0Reg) else ramRead e a) ∧
      ∀ i, screenRead u i = if e.emitTarget = .screen i then lowByte (e.reg out0Reg) else screenRead e i := by
  obtain ⟨h, -⟩ | ⟨-, ⟨ht, h⟩ | ⟨a, ht, h⟩ | ⟨i, ht, h⟩⟩ := outputEmit_cases pc e
  · exact absurd h hr
  · exact ⟨_, h, by simp [ht]⟩
  · refine ⟨_, h, by simp, by simp, by simp, by simp, .inr ⟨a, ht, rfl⟩, fun hwf b => ?_, fun j => ?_⟩
    · simp [ht, ramRead_ramWrite hwf, eq_comm]
    · simp [ht, screenRead]
  · refine ⟨_, h, by simp, by simp, by simp, by simp, .inl rfl, fun _ b => ?_, fun j => ?_⟩
    · simp [ht, ramRead]
    · simp [ht, screenRead_screenWrite, eq_comm]

/-! ### The PC update -/

/-- The PC update writes the PC or nothing (R136). -/
theorem pcUpdate_cases (dest : RegIdx) (wrote : Bool) (s : State) :
    (wrote = true ∧ dest = pcReg ∧ pcUpdate dest wrote s = s) ∨
    (¬ (wrote = true ∧ dest = pcReg) ∧ pcUpdate dest wrote s = s.setReg pcReg (s.pc + 1)) := by
  unfold pcUpdate
  by_cases h : wrote = true ∧ dest = pcReg
  · exact .inl ⟨h.1, h.2, by simp [h]⟩
  · refine .inr ⟨h, if_neg ?_⟩
    simpa using h

@[simp] theorem pcUpdate_reg_of_ne {r : RegIdx} (h : r ≠ pcReg) (dest : RegIdx) (wrote : Bool) (s : State) :
    (pcUpdate dest wrote s).reg r = s.reg r := by
  obtain ⟨-, -, e⟩ | ⟨-, e⟩ := pcUpdate_cases dest wrote s <;> simp [e, h]

theorem pcUpdate_pc (dest : RegIdx) (wrote : Bool) (s : State) :
    (pcUpdate dest wrote s).pc = if wrote = true ∧ dest = pcReg then s.pc else s.pc + 1 := by
  obtain ⟨h1, h2, e⟩ | ⟨h, e⟩ := pcUpdate_cases dest wrote s
  · rw [e, if_pos ⟨h1, h2⟩]
  · rw [e, if_neg h, State.pc, reg_setReg, if_pos rfl]

@[simp] theorem pcUpdate_rom (dest : RegIdx) (wrote : Bool) (s : State) : (pcUpdate dest wrote s).rom = s.rom := by
  obtain ⟨-, -, e⟩ | ⟨-, e⟩ := pcUpdate_cases dest wrote s <;> simp [e]
@[simp] theorem pcUpdate_ram (dest : RegIdx) (wrote : Bool) (s : State) : (pcUpdate dest wrote s).ram = s.ram := by
  obtain ⟨-, -, e⟩ | ⟨-, e⟩ := pcUpdate_cases dest wrote s <;> simp [e]
@[simp] theorem pcUpdate_screen (dest : RegIdx) (wrote : Bool) (s : State) :
    (pcUpdate dest wrote s).screen = s.screen := by
  obtain ⟨-, -, e⟩ | ⟨-, e⟩ := pcUpdate_cases dest wrote s <;> simp [e]
@[simp] theorem pcUpdate_clock (dest : RegIdx) (wrote : Bool) (s : State) :
    (pcUpdate dest wrote s).clock = s.clock := by
  obtain ⟨-, -, e⟩ | ⟨-, e⟩ := pcUpdate_cases dest wrote s <;> simp [e]
@[simp] theorem pcUpdate_status (dest : RegIdx) (wrote : Bool) (s : State) :
    (pcUpdate dest wrote s).status = s.status := by
  obtain ⟨-, -, e⟩ | ⟨-, e⟩ := pcUpdate_cases dest wrote s <;> simp [e]

/-! ### The whole cycle -/

/-- A cycle completes from the state that emission leaves, or is discarded with the fault (R139). -/
theorem runCycle_cases (dest : RegIdx) (op : State → Option Word) (s : State) :
    ((writeBack dest (op (inputSample s)) (inputSample s)).emitTarget = .outOfRange ∧
      runCycle dest op s = takeFault (.screenWriteOutOfRange s.pc
        ((writeBack dest (op (inputSample s)) (inputSample s)).reg out1Reg)) s) ∨
    ∃ emitted, EmitsInRange (writeBack dest (op (inputSample s)) (inputSample s)) ∧
      outputEmit s.pc (writeBack dest (op (inputSample s)) (inputSample s)) = .ok emitted ∧
      runCycle dest op s = countCycle (pcUpdate dest (op (inputSample s)).isSome emitted) := by
  unfold runCycle
  obtain ⟨ht, h⟩ | ⟨hr, -⟩ := outputEmit_cases s.pc (writeBack dest (op (inputSample s)) (inputSample s))
  · exact .inl ⟨ht, by simp [h]⟩
  · obtain ⟨u, h, -⟩ := outputEmit_completes (pc := s.pc) hr
    exact .inr ⟨u, hr, h, by simp [h]⟩

/-- What a cycle that completes leaves: the registers of the executed state but for the PC, the PC by R136, and
the effects of steps 3 to 5. -/
theorem runCycle_completes {dest : RegIdx} {op : State → Option Word} {s e : State}
    (he : e = writeBack dest (op (inputSample s)) (inputSample s)) (hr : EmitsInRange e) (hwf : Memory.wf s.ram = true) :
    (∀ r, r ≠ pcReg → (runCycle dest op s).reg r = e.reg r) ∧
    (runCycle dest op s).pc =
      (if (op (inputSample s)).isSome = true ∧ dest = pcReg then e.pc else e.pc + 1) ∧
    CycleEffects e s (runCycle dest op s) := by
  subst he
  obtain ⟨ht, -⟩ | ⟨emitted, -, hem, hrun⟩ := runCycle_cases dest op s
  · exact absurd ht hr
  · obtain ⟨u, hu, hreg, hrom, hclock, hstatus, -, hram, hscreen⟩ := outputEmit_completes (pc := s.pc) hr
    obtain rfl : emitted = u := by simpa [hem] using hu
    refine ⟨fun r h => by simp [hrun, h, hreg], ?_, ?_⟩
    · have hpc : emitted.pc = (writeBack dest (op (inputSample s)) (inputSample s)).pc := hreg pcReg
      rw [← hpc, ← pcUpdate_pc, hrun]
      rfl
    · refine ⟨?_, ?_, ?_, fun a => ?_, fun i => ?_⟩
      · simp [hrun, hrom]
      · simp [hrun, hstatus]
      · simp [hrun, hclock]
      · have : ramRead (runCycle dest op s) a = ramRead emitted a := by simp [hrun, ramRead]
        rw [this, hram (by simpa using hwf)]
        simp [ramRead]
      · have : screenRead (runCycle dest op s) i = screenRead emitted i := by simp [hrun, screenRead]
        rw [this, hscreen]
        simp [screenRead]

/-- Every meaning is the cycle of its operation. -/
theorem exec_eq_runCycle (i : Instr) (s : State) : exec i s = .next (runCycle i.dest (operation i) s) := by
  cases i <;> rfl

/-! ### The step -/

theorem step_of_cycle {s : State} (h : TakesCycle s) : step s = exec (decodeWord (romRead s s.pc)) s := by
  rw [TakesCycle] at h
  simp [step, h, fetchWord_eq]

/-- Everything a step can do. -/
theorem step_cases (s : State) :
    (boundary s = .wait ∧ step s = .next s) ∨
    (boundary s = .halt ∧ step s = .next (endRun .halted s)) ∨
    (TakesCycle s ∧ step s = .next (runCycle (decodeWord (romRead s s.pc)).dest
      (operation (decodeWord (romRead s s.pc))) s)) := by
  cases h : boundary s with
  | wait => simp [step, h]
  | halt => simp [step, h]
  | cycle => simp [step_of_cycle h, TakesCycle, h, exec_eq_runCycle]

/-- When a cycle is due. -/
theorem takesCycle_iff (s : State) : TakesCycle s ↔ s.status = .running ∧ s.pc ≠ haltPc := by
  unfold TakesCycle boundary
  cases hs : s.status with
  | running => by_cases hp : s.pc = haltPc <;> simp [hp]
  | ready => simp
  | halted => simp
  | faulted f => simp
  | stopped r => simp

/-- When a core halts. -/
theorem boundary_eq_halt (s : State) : boundary s = .halt ↔ s.status = .running ∧ s.pc = haltPc := by
  unfold boundary
  cases hs : s.status with
  | running => by_cases hp : s.pc = haltPc <;> simp [hp]
  | ready => simp
  | halted => simp
  | faulted f => simp
  | stopped r => simp

/-- A core that does not run waits. -/
theorem boundary_eq_wait (s : State) : boundary s = .wait ↔ s.status ≠ .running := by
  unfold boundary
  cases hs : s.status with
  | running => by_cases hp : s.pc = haltPc <;> simp [hp]
  | ready => simp
  | halted => simp
  | faulted f => simp
  | stopped r => simp

end Sys2Proof.Machine
end

