-- ==== Sys2Proof/Laws/Decode.lean ====
section
/-! SUPPORT. Small laws of the encoding: registers, the opcode map, the 8-bit literal, and the four fields. -/

namespace Sys2Proof

@[simp] theorem regOfNibble_nibbleOfReg (r : RegIdx) : regOfNibble (nibbleOfReg r) = r := rfl

@[simp] theorem nibbleOfReg_regOfNibble (n : Nibble) : nibbleOfReg (regOfNibble n) = n := rfl

@[simp] theorem opOfNibble_opCode (o : Op) : opOfNibble (opCode o) = o := by cases o <;> rfl

@[simp] theorem opCode_opOfNibble (n : Nibble) : opCode (opOfNibble n) = n := by
  revert n
  decide

/-- The two nibbles of an 8-bit literal give it back (R95). -/
@[simp] theorem imm8OfNibbles_high_low (v : Byte) : imm8OfNibbles (imm8High v) (imm8Low v) = v := by
  revert v
  decide

@[simp] theorem imm8High_imm8OfNibbles (a b : Nibble) : imm8High (imm8OfNibbles a b) = a := by
  revert a b
  decide

@[simp] theorem imm8Low_imm8OfNibbles (a b : Nibble) : imm8Low (imm8OfNibbles a b) = b := by
  revert a b
  decide

/-- Every instruction's operands fit their fields. -/
theorem wellFormed_of_instr (i : Instr) : i.wellFormed = true := by
  cases i <;>
    simp only [Instr.wellFormed, regFits, literalFits, literal8Fits, Bool.and_eq_true, decide_eq_true_eq] <;>
    omega

end Sys2Proof
end

