-- ==== Sys2Proof/Laws/PerInstr.lean ====
section
/-! SUPPORT. Statements made for each instruction: the family `FieldsKept` says that the four fields of an
instruction give it back, with its operation in the `op` field and every operand fitting its field. -/

namespace Sys2Proof.Laws

/-- The fields of an instruction carry its operation and all its operands (R92, R94). -/
def FieldsKept.Statement (i : Instr) : Prop :=
  instrOfFields (fieldsOfInstr i) = i ∧ (fieldsOfInstr i).op = opCode i.op ∧ i.wellFormed = true

theorem FieldsKept.mov (d a : RegIdx) : FieldsKept.Statement (.mov d a) :=
  ⟨by simp [instrOfFields, fieldsOfInstr], rfl, wellFormed_of_instr _⟩
theorem FieldsKept.not (d a : RegIdx) : FieldsKept.Statement (.not d a) :=
  ⟨by simp [instrOfFields, fieldsOfInstr], rfl, wellFormed_of_instr _⟩
theorem FieldsKept.and (d a b : RegIdx) : FieldsKept.Statement (.and d a b) :=
  ⟨by simp [instrOfFields, fieldsOfInstr], rfl, wellFormed_of_instr _⟩
theorem FieldsKept.or (d a b : RegIdx) : FieldsKept.Statement (.or d a b) :=
  ⟨by simp [instrOfFields, fieldsOfInstr], rfl, wellFormed_of_instr _⟩
theorem FieldsKept.add (d a b : RegIdx) : FieldsKept.Statement (.add d a b) :=
  ⟨by simp [instrOfFields, fieldsOfInstr], rfl, wellFormed_of_instr _⟩
theorem FieldsKept.sub (d a b : RegIdx) : FieldsKept.Statement (.sub d a b) :=
  ⟨by simp [instrOfFields, fieldsOfInstr], rfl, wellFormed_of_instr _⟩
theorem FieldsKept.addi (d a : RegIdx) (k : Nibble) : FieldsKept.Statement (.addi d a k) :=
  ⟨by simp [instrOfFields, fieldsOfInstr], rfl, wellFormed_of_instr _⟩
theorem FieldsKept.subi (d a : RegIdx) (k : Nibble) : FieldsKept.Statement (.subi d a k) :=
  ⟨by simp [instrOfFields, fieldsOfInstr], rfl, wellFormed_of_instr _⟩
theorem FieldsKept.set (d : RegIdx) (k : Byte) : FieldsKept.Statement (.set d k) :=
  ⟨by simp [instrOfFields, fieldsOfInstr], rfl, wellFormed_of_instr _⟩
theorem FieldsKept.seth (d : RegIdx) (k : Byte) : FieldsKept.Statement (.seth d k) :=
  ⟨by simp [instrOfFields, fieldsOfInstr], rfl, wellFormed_of_instr _⟩
theorem FieldsKept.inciz (d : RegIdx) (k : Nibble) (b : RegIdx) : FieldsKept.Statement (.inciz d k b) :=
  ⟨by simp [instrOfFields, fieldsOfInstr], rfl, wellFormed_of_instr _⟩
theorem FieldsKept.decin (d : RegIdx) (k : Nibble) (b : RegIdx) : FieldsKept.Statement (.decin d k b) :=
  ⟨by simp [instrOfFields, fieldsOfInstr], rfl, wellFormed_of_instr _⟩
theorem FieldsKept.movez (d a b : RegIdx) : FieldsKept.Statement (.movez d a b) :=
  ⟨by simp [instrOfFields, fieldsOfInstr], rfl, wellFormed_of_instr _⟩
theorem FieldsKept.movex (d a b : RegIdx) : FieldsKept.Statement (.movex d a b) :=
  ⟨by simp [instrOfFields, fieldsOfInstr], rfl, wellFormed_of_instr _⟩
theorem FieldsKept.movep (d a b : RegIdx) : FieldsKept.Statement (.movep d a b) :=
  ⟨by simp [instrOfFields, fieldsOfInstr], rfl, wellFormed_of_instr _⟩
theorem FieldsKept.moven (d a b : RegIdx) : FieldsKept.Statement (.moven d a b) :=
  ⟨by simp [instrOfFields, fieldsOfInstr], rfl, wellFormed_of_instr _⟩

end Sys2Proof.Laws
end

