-- ==== Sys2Proof/Laws/Session.lean ====
section
/-! SUPPORT. What a step of a session and a host move can do, said once. -/

namespace Sys2Proof.Machine

/-! ### The step of a session -/

/-- Everything a step of a session can do. -/
theorem session_step_cases (m : Session) :
    (m.decision = .hold ∧ m.step = .next m) ∨
    (∃ reason, m.decision = .stop reason ∧ m.step = .next { m with core := endRun (.stopped reason) m.core }) ∨
    ∃ u, m.decision = .go ∧ step m.core = .next u ∧
      m.step = .next ⟨u, { m.host with notification := notificationAfter u m.host.notification }⟩ := by
  cases h : m.decision with
  | hold => exact .inl ⟨rfl, by simp [Session.step, h]⟩
  | stop reason => exact .inr (.inl ⟨reason, rfl, by simp [Session.step, h]⟩)
  | go =>
    have hu : ∃ u, step m.core = .next u := by
      obtain ⟨-, e⟩ | ⟨-, e⟩ | ⟨-, e⟩ := step_cases m.core <;> exact ⟨_, e⟩
    obtain ⟨u, hu⟩ := hu
    exact .inr (.inr ⟨u, rfl, hu, by simp [Session.step, h, hu]⟩)

/-- When the host's side lets the core go on: always, but in a run with a notification in the way, or with a stop
asked for at a PC other than the halt PC (R204, R213, R214, O9). -/
theorem decision_eq_go (m : Session) :
    m.decision = .go ↔ (m.core.status = .running →
      (m.host.notification = .quiet ∨ m.host.notification = .issued) ∧ (m.host.stop = true → m.core.pc = haltPc)) := by
  unfold Session.decision
  cases hs : m.core.status with
  | running =>
    cases hn : m.host.notification <;> cases hst : m.host.stop <;> by_cases hp : m.core.pc = haltPc <;> simp [hp]
  | ready => simp
  | halted => simp
  | faulted f => simp
  | stopped r => simp

/-- When the host ends the run, and why. -/
theorem decision_eq_stop (m : Session) (reason : StopReason) :
    m.decision = .stop reason ↔ m.core.status = .running ∧
      ((∃ e, m.host.notification = .failed e ∧ reason = .notifyError e) ∨
        (m.host.notification = .quiet ∨ m.host.notification = .issued) ∧ m.host.stop = true ∧ m.core.pc ≠ haltPc ∧
          reason = .hostStop) := by
  unfold Session.decision
  cases hs : m.core.status with
  | running =>
    cases hn : m.host.notification <;> cases hst : m.host.stop <;> by_cases hp : m.core.pc = haltPc <;>
      simp [hp, eq_comm]
  | ready => simp
  | halted => simp
  | faulted f => simp
  | stopped r => simp

/-- The notification after a step is the one before it, or, where the core still runs, is issued. -/
theorem notificationAfter_cases (u : State) (n : Notification) :
    (u.status = .running ∧ notificationAfter u n = .issued) ∨ (u.status ≠ .running ∧ notificationAfter u n = n) := by
  unfold notificationAfter
  cases h : u.status <;> simp

/-! ### The moves of the host -/

@[simp] theorem withNotification_core (m : Session) (n : Notification) : (m.withNotification n).core = m.core := rfl
@[simp] theorem withNotification_stop (m : Session) (n : Notification) : (m.withNotification n).host.stop = m.host.stop :=
  rfl
@[simp] theorem withNotification_notification (m : Session) (n : Notification) :
    (m.withNotification n).host.notification = n := rfl

/-- Everything a host move can do. -/
theorem hostMove_cases (move : HostMove) (m : Session) :
    hostMove move m = m ∨
    (move = .start ∧ m.core.status = .ready ∧ hostMove move m = { m with core := { m.core with status := .running } }) ∨
    (move = .stop ∧ m.core.status = .running ∧ hostMove move m = { m with host := { m.host with stop := true } }) ∨
    ∃ n, m.core.status = .running ∧ (m.host.notification = .issued ∨ m.host.notification = .blocked) ∧
      (n = .quiet ∨ n = .blocked ∨ ∃ e, n = .failed e) ∧ hostMove move m = m.withNotification n := by
  cases move with
  | start =>
    obtain ⟨h, e⟩ | ⟨h, e⟩ := startCore_cases m.core
    · exact .inr (.inl ⟨rfl, h, by simp [hostMove, e]⟩)
    · exact .inl (by simp [hostMove, e])
  | stop =>
    cases h : m.core.status with
    | running => exact .inr (.inr (.inl ⟨rfl, rfl, by simp [hostMove, h]⟩))
    | ready => exact .inl (by simp [hostMove, h])
    | halted => exact .inl (by simp [hostMove, h])
    | faulted f => exact .inl (by simp [hostMove, h])
    | stopped r => exact .inl (by simp [hostMove, h])
  | notifyReturns =>
    cases h : m.core.status <;> cases hn : m.host.notification <;> simp [hostMove, h, hn]
  | notifyBlocks =>
    cases h : m.core.status <;> cases hn : m.host.notification <;> simp [hostMove, h, hn]
  | notifyFails e =>
    cases h : m.core.status <;> cases hn : m.host.notification <;> simp [hostMove, h, hn]
    · exact .inr (.inr (.inr ⟨e, rfl⟩))
    · exact .inr (.inr (.inr ⟨e, rfl⟩))

/-- A host move writes nothing of the core but the status (R66, R212). -/
theorem hostMove_core (move : HostMove) (m : Session) :
    ∃ status, (hostMove move m).core = { m.core with status := status } := by
  obtain e | ⟨-, -, e⟩ | ⟨-, -, e⟩ | ⟨n, -, -, -, e⟩ := hostMove_cases move m <;> rw [e]
  · exact ⟨_, rfl⟩
  · exact ⟨_, rfl⟩
  · exact ⟨_, rfl⟩
  · exact ⟨_, rfl⟩

end Sys2Proof.Machine
end

