-- ==== Sys2Proof/Tests/Slice0.lean ====
section
/-! SUPPORT. Tests.  Expected results come from spec/95_test_vectors.md, whose vector is named in each comment, or
from the words that the encoding of spec/30_encoding.md gives.  The last section holds the witnesses: for each
statement with hypotheses, a state and operands that meet them. -/

namespace Sys2Proof.Tests

open Sys2Proof.Machine

/-! ### Helpers -/

/-- The state with each register of a list set. -/
def withRegs (regs : List (RegIdx × Word)) (s : State) : State := regs.foldl (fun t p => t.setReg p.1 p.2) s

/-- The convention of 95_test_vectors.md: running, the PC at 0x0010, every other register 0. -/
def base : State := { State.reset with status := .running }.setReg 15 0x0010

/-- The conventional start state of a vector: its word at 0x0010, and the registers it lists. -/
def vector (w : Word) (regs : List (RegIdx × Word)) : State :=
  withRegs regs { base with rom := sparseWrite [] 0x0010 w }

/-- The state after one step. -/
def after (s : State) : State :=
  match step s with
  | .next u => u
  | .fault _ => s
  | .refused _ => s

/-- A core beside a host that has asked for nothing. -/
def session (s : State) : Session := ⟨s, .idle⟩

/-- The session after one step. -/
def sessionAfter (m : Session) : Session :=
  match m.step with
  | .next n => n
  | .fault _ => m
  | .refused _ => m

/-! ### Well-formedness: one ill-formed word for each check -/

theorem test_raw_op_out_of_range : (RawWord.mk 16 0 0 0).wellFormed = false ∧ encodeRaw ⟨16, 0, 0, 0⟩ = none := by
  decide
theorem test_raw_dest_out_of_range : (RawWord.mk 0 16 0 0).wellFormed = false ∧ encodeRaw ⟨0, 16, 0, 0⟩ = none := by
  decide
theorem test_raw_a_out_of_range : (RawWord.mk 0 0 16 0).wellFormed = false ∧ encodeRaw ⟨0, 0, 16, 0⟩ = none := by
  decide
theorem test_raw_b_out_of_range : (RawWord.mk 0 0 0 16).wellFormed = false ∧ encodeRaw ⟨0, 0, 0, 16⟩ = none := by
  decide
theorem test_raw_in_range : encodeRaw ⟨15, 15, 15, 15⟩ = some 0xFFFF ∧ encodeRaw ⟨6, 3, 4, 5⟩ = some 0x6345 := by
  decide

/-! ### Decoding: each operation's word from the opcode map (R96) and its encoding line -/

theorem test_decode_mov : decodeWord 0b0000_0001_0010_1111 = .mov 1 2 := by decide
theorem test_decode_not : decodeWord 0b0001_1111_0000_0000 = .not 15 0 := by decide
theorem test_decode_and : decodeWord 0b0010_0011_0001_0010 = .and 3 1 2 := by decide
theorem test_decode_or : decodeWord 0b0011_1101_1101_0001 = .or 13 13 1 := by decide
theorem test_decode_add : decodeWord 0b0100_1111_1111_0010 = .add 15 15 2 := by decide
theorem test_decode_sub : decodeWord 0b0101_0011_0010_0001 = .sub 3 2 1 := by decide
theorem test_decode_addi : decodeWord 0b0110_0011_0100_0101 = .addi 3 4 5 := by decide
theorem test_decode_subi : decodeWord 0b0111_1111_0000_0001 = .subi 15 0 1 := by decide
theorem test_decode_set : decodeWord 0b1000_0001_0010_0011 = .set 1 0x23 := by decide
theorem test_decode_seth : decodeWord 0b1001_0001_0100_0101 = .seth 1 0x45 := by decide
theorem test_decode_inciz : decodeWord 0b1010_0010_0101_0011 = .inciz 2 5 3 := by decide
theorem test_decode_decin : decodeWord 0b1011_1111_0011_0010 = .decin 15 3 2 := by decide
theorem test_decode_movez : decodeWord 0b1100_1111_0001_0010 = .movez 15 1 2 := by decide
theorem test_decode_movex : decodeWord 0b1101_1111_0010_0001 = .movex 15 2 1 := by decide
theorem test_decode_movep : decodeWord 0b1110_0101_0100_0001 = .movep 5 4 1 := by decide
theorem test_decode_moven : decodeWord 0b1111_0101_0001_0001 = .moven 5 1 1 := by decide

/-- The image order: the first byte is the high byte (R67). -/
theorem test_decode_bytes_big_endian : decodeBytes [0x63, 0x45, 0x99] = .ok (.addi 3 4 5, [0x99]) := by decide
theorem test_decode_truncated : decodeBytes [0x63] = .error (.truncated 1) ∧ decodeBytes [] = .error (.truncated 0) := by
  decide
theorem test_encode_addi : encode (.addi 3 4 5) = 0x6345 ∧ encode (.mov 15 0) = 0x0F00 ∧ encode (.set 1 0x23) = 0x8123 := by
  decide

/-! ### Register and ALU operations (95_test_vectors.md section 2.1) -/

/-- A-1. -/
theorem test_mov_copies : (after (vector 0x0120 [(2, 0x1234)])).reg 1 = 0x1234 ∧
    (after (vector 0x0120 [(2, 0x1234)])).pc = 0x0011 := by decide
/-- A-5. -/
theorem test_mov_to_pc_jumps : (after (vector 0x0F70 [(7, 0xFFFF)])).pc = 0xFFFF := by decide
/-- A-7. -/
theorem test_not_complements : (after (vector 0x1120 [(2, 0x00FF)])).reg 1 = 0xFF00 := by decide
/-- A-10. -/
theorem test_not_to_pc : (after (vector 0x1F00 [(0, 0x0001)])).pc = 0xFFFE := by decide
/-- A-11. -/
theorem test_and : (after (vector 0x2312 [(1, 0xF0F0), (2, 0xFF00)])).reg 3 = 0xF000 := by decide
/-- A-14: `or` that turns emission on in its own cycle. -/
theorem test_or_starts_emission :
    let u := after (vector 0x3DD1 [(1, 0x8000), (13, 0x0042), (14, 0x0020)])
    u.reg 13 = 0x8042 ∧ ramRead u 0x0020 = 0x42 := by decide
/-- A-13. -/
theorem test_or : (after (vector 0x3312 [(1, 0xF0F0), (2, 0x0F00)])).reg 3 = 0xFFF0 := by decide
/-- A-15. -/
theorem test_add_wraps : (after (vector 0x4312 [(1, 0xFFFF), (2, 0x0001)])).reg 3 = 0x0000 := by decide
/-- A-17: a source that is also the destination. -/
theorem test_add_doubles : (after (vector 0x4111 [(1, 0x4001)])).reg 1 = 0x8002 := by decide
/-- A-19. -/
theorem test_sub_wraps : (after (vector 0x5312 [(1, 0x0000), (2, 0x0001)])).reg 3 = 0xFFFF := by decide
/-- A-20: the order matters. -/
theorem test_sub_order : (after (vector 0x5321 [(1, 0x0000), (2, 0x0001)])).reg 3 = 0x0001 := by decide
/-- A-23. -/
theorem test_addi_literal_unsigned : (after (vector 0x611F [(1, 0xFFFF)])).reg 1 = 0x000E := by decide
/-- A-25: register 15 reads the instruction's own address. -/
theorem test_addi_reads_own_address : (after (vector 0x61F1 [])).reg 1 = 0x0011 := by decide
/-- A-27. -/
theorem test_subi_wraps : (after (vector 0x7345 [(4, 0x0003)])).reg 3 = 0xFFFE := by decide
/-- A-29. -/
theorem test_subi_pc_relative : (after (vector 0x7FF2 [])).pc = 0x000E := by decide

/-! ### Immediate operations (section 2.2) -/

/-- I-1. -/
theorem test_set_clears_high_byte : (after (vector 0x8123 [(1, 0xFFFF)])).reg 1 = 0x0023 := by decide
/-- I-11: `set` on register 13 turns emission off in its own cycle, and no sampling ran at its start. -/
theorem test_set_stops_emission :
    let u := after (vector 0x8DA5 [(6, 0x1234), (13, 0xC0FF), (14, 0x0003)])
    u.reg 13 = 0x00A5 ∧ u.reg 6 = 0x1234 ∧ screenRead u 3 = 0 := by decide
/-- I-6. -/
theorem test_seth_keeps_low_byte : (after (vector 0x9145 [(1, 0x0023)])).reg 1 = 0x4523 := by decide
/-- I-12: sampling before, emission after. -/
theorem test_seth_starts_emission :
    let s := ramWrite (vector 0x9D80 [(13, 0x0033), (14, 0x0040)]) 0x0040 0x11
    (after s).reg 6 = 0x0011 ∧ (after s).reg 13 = 0x8033 ∧ ramRead (after s) 0x0040 = 0x33 := by decide

/-! ### Conditional operations (section 2.3) -/

/-- C-3: the test reads the old register. -/
theorem test_inciz_fires : (after (vector 0xA131 [(1, 0)])).reg 1 = 3 := by decide
/-- C-6: a branch that is not taken. -/
theorem test_inciz_pc_not_taken : (after (vector 0xAF43 [(3, 1)])).pc = 0x0011 := by decide
/-- C-10. -/
theorem test_decin_fires : (after (vector 0xB111 [(1, 0x8000)])).reg 1 = 0x7FFF := by decide
/-- C-12. -/
theorem test_decin_pc_not_taken : (after (vector 0xBF32 [(2, 0x7FFF)])).pc = 0x0011 := by decide
/-- C-13. -/
theorem test_movez_taken : (after (vector 0xCF12 [(1, 0x0100), (2, 0)])).pc = 0x0100 := by decide
/-- C-14. -/
theorem test_movez_not_taken : (after (vector 0xCF12 [(1, 0x0100), (2, 1)])).pc = 0x0011 := by decide
/-- C-17. -/
theorem test_movex_taken : (after (vector 0xDF21 [(1, 2), (2, 0x0002)])).pc = 0x0002 := by decide
/-- C-18. -/
theorem test_movex_not_taken : (after (vector 0xDF21 [(1, 0), (2, 0x0002)])).pc = 0x0011 := by decide
/-- C-20: zero is not negative. -/
theorem test_movep_zero : (after (vector 0xE541 [(1, 0x0000), (4, 0x1111)])).reg 5 = 0x1111 := by decide
/-- C-23. -/
theorem test_movep_pc_not_taken : (after (vector 0xEF41 [(1, 0x8000), (4, 0x0200)])).pc = 0x0011 := by decide
/-- C-24. -/
theorem test_moven_fires : (after (vector 0xF511 [(1, 0xFFFC)])).reg 5 = 0xFFFC := by decide
/-- C-25. -/
theorem test_moven_keeps : (after (vector 0xF511 [(1, 0x7FFF)])).reg 5 = 0x0000 := by decide

/-! ### The boundary (section 2.4) and the side-channel (section 2.5) -/

/-- PC-2: no cycle at the halt PC. -/
theorem test_halt_at_boundary :
    (after (vector 0 [(15, 0xFFFF)])).status = .halted ∧ (after (vector 0 [(15, 0xFFFF)])).clock = 0 := by decide
/-- PC-3: the PC does not wrap to 0. -/
theorem test_last_word_is_executed :
    (after (vector 0 [(15, 0xFFFE)])).pc = 0xFFFF ∧ (after (vector 0 [(15, 0xFFFE)])).clock = 1 ∧
    (after (after (vector 0 [(15, 0xFFFE)]))).status = .halted := by decide
/-- IO-1: the high byte of register 6 is kept. -/
theorem test_sample_ram :
    (after (ramWrite (vector 0 [(6, 0x1200), (14, 0x0040)]) 0x0040 0x5A)).reg 6 = 0x125A := by decide
/-- IO-2: the read index is masked with 0x000F. -/
theorem test_sample_screen :
    (after (screenWrite (vector 0 [(13, 0x4000), (14, 0x0013)]) 3 0x81)).reg 6 = 0x0081 := by decide
/-- IO-4. -/
theorem test_emit_last_screen_byte : screenRead (after (vector 0 [(13, 0xC0F0), (14, 0x000F)])) 15 = 0xF0 := by decide
/-- IO-5: the cycle is discarded. -/
theorem test_emit_out_of_range :
    after (vector 0 [(13, 0xC001), (14, 0x0010)]) =
      { vector 0 [(13, 0xC001), (14, 0x0010)] with status := .faulted (.screenWriteOutOfRange 0x0010 0x0010) } := by
  decide
/-- IO-6: the write index is masked with 0x00FF. -/
theorem test_emit_index_masked : screenRead (after (vector 0 [(13, 0xC001), (14, 0x0103)])) 3 = 0x01 := by decide
/-- IO-7: sampling is undone with the rest of the cycle. -/
theorem test_fault_discards_sampling :
    (after (screenWrite (vector 0x9DC0 [(13, 0x4000), (14, 0x0023)]) 3 0x81)).reg 6 = 0x0000 := by decide
/-- IO-10: emission uses the address that the instruction left. -/
theorem test_emit_after_execution :
    let u := after (vector 0x8E41 [(13, 0x8033), (14, 0x0040)])
    ramRead u 0x0041 = 0x33 ∧ ramRead u 0x0040 = 0x00 := by decide

/-! ### The host (60_exceptions.md) -/

theorem test_reset_waits : step State.reset = .next State.reset := rfl
/-- R216: a start moves the status at once, and the counter stays. -/
theorem test_start :
    (hostMove .start (session State.reset)).core = { State.reset with status := .running } := by decide
/-- R213: a stop right after the start ends the run before any cycle. -/
theorem test_stop_after_start :
    (sessionAfter (hostMove .stop (hostMove .start (session State.reset)))).core =
      { State.reset with status := .stopped .hostStop } := by decide
/-- R204: the halt test comes before a pending stop. -/
theorem test_halt_before_stop :
    (sessionAfter (hostMove .stop (session (vector 0 [(15, 0xFFFF)])))).core.status = .halted ∧
    (sessionAfter (hostMove .stop (session base))).core.status = .stopped .hostStop := by decide
/-- R214: the cycle counts, then the run ends. -/
theorem test_notify_error :
    let m := sessionAfter (session base)
    m.core.clock = 1 ∧ (sessionAfter (hostMove (.notifyFails ⟨""⟩) m)).core.clock = 1 ∧
    (sessionAfter (hostMove (.notifyFails ⟨""⟩) m)).core.status = .stopped (.notifyError ⟨""⟩) := by decide
/-- O9. -/
theorem test_notify_blocks :
    sessionAfter (hostMove .notifyBlocks (sessionAfter (session base))) =
      hostMove .notifyBlocks (sessionAfter (session base)) := by
  decide
/-- R56: 0xA5 lights rows 0, 2, 5 and 7 (program P3). -/
theorem test_pixels :
    (List.finRange 8).map (pixelLit (screenWrite base 3 0xA5) 3) =
      [true, false, true, false, false, true, false, true] := by decide
/-- R261. -/
theorem test_pause : pauseMs 1 = 900 ∧ pauseMs (runSpeed none) = 500 ∧ pauseMs (runSpeed (some 99)) = 0 := by decide

/-! ### The loader (section 2.7) and the assembler (section 2.6) -/

/-- L-1. -/
theorem test_load_two_words :
    loadRom (readImage ":0200000081235A\n:02000100914527\n:00000001FF\n".toList) =
      .ok [(0, 0x8123), (1, 0x9145)] := by decide
/-- L-2. -/
theorem test_load_bad_size :
    loadRom (readImage ":01000000817E\n:00000001FF\n".toList) = .error ⟨.malformedRecordSize, 1⟩ := by decide
/-- L-3. -/
theorem test_load_bad_address :
    loadRom (readImage ":02FFFF00000000\n:00000001FF\n".toList) = .error ⟨.addressOutOfRange, 1⟩ := by decide
/-- L-5: the later record wins. -/
theorem test_load_later_record_wins :
    loadRom (readImage ":0200000081235A\n:0200000082027A\n:00000001FF\n".toList) = .ok [(0, 0x8202)] := by decide
/-- L-6 and L-7: a type-04 record is ignored, and nothing after end-of-file is read. -/
theorem test_load_ignores :
    loadRom (readImage ":020000040000FA\n:0200000081235A\n:00000001FF\n:02000100914527\n".toList) =
      .ok [(0, 0x8123)] := by decide
/-- W6, corrected. -/
theorem test_assemble_image :
    assembleImage "# hello\n\n   mov r1 r2\n".toList = .ok ":020000000120DD\n:00000001FF\n".toList := by decide
/-- AS-3, AS-5 and AS-6. -/
theorem test_assemble_spellings :
    assembleLine 1 "MOV R1 R2".toList = .ok (some 0x0120) ∧
    assembleLine 1 "inciz r2 5 r3".toList = .ok (some 0xA253) ∧
    assembleLine 1 "movz pc out1 in".toList = .ok (some 0xCFE6) := by decide
/-- AS-7, AS-8, AS-11 and AS-12. -/
theorem test_assemble_literals :
    assembleLine 1 "addi r1 r1 -1".toList = .ok (some 0x611F) ∧
    assembleLine 1 "addi r1 r1 0x15".toList = .ok (some 0x6115) ∧
    assembleLine 1 "set r1 0x100 0x0".toList = .error ⟨.badLiteral, 1, "0x100".toList⟩ ∧
    assembleLine 1 "addi r1 r1 128".toList = .error ⟨.badLiteral, 1, "128".toList⟩ := by decide
/-- AS-13, AS-14 and AS-16. -/
theorem test_assemble_errors :
    assembleLine 7 "add r1 r2 r16".toList = .error ⟨.unknownRegister, 7, "r16".toList⟩ ∧
    assembleLine 7 "jmp r1".toList = .error ⟨.unknownMnemonic, 7, "jmp".toList⟩ ∧
    assembleLine 7 "mov r1 r2 # note".toList = .error ⟨.wrongOperandCount, 7, "mov".toList⟩ := by decide

/-- R106: leading zeros (log entry 7), and R100: the white space of the model (log entry 7). -/
theorem test_assemble_choices :
    assembleLine 1 "addi r1 r1 007".toList = .ok (some 0x6117) ∧
    tokensOfLine ['a', Char.ofNat 9, 'b', Char.ofNat 11, 'c'] = [['a'], ['b', Char.ofNat 11, 'c']] := by decide
/-- R111: the exit status, and an I/O error at the second line. -/
theorem test_assemble_exit :
    assembleExit (assembleCommand (sourceLines "mov r1 r2\n".toList) true) = .zero ∧
    assembleCommand [.text "mov r1 r2".toList, .ioError] true = .error ⟨.ioError, 2, []⟩ ∧
    assembleExit (assembleCommand [.text "jmp r1".toList] true) = .nonZero := by decide
/-- R238: the `run` command exits non-zero after a load error, and else runs. -/
theorem test_run_exit :
    runExit (boot (readImage ":02FFFF00000000\n".toList)) = some .nonZero ∧
    runExit (boot (readImage ":00000001FF\n".toList)) = none := by decide

/-! ### The host's entry points -/

/-- A word placed after reset runs first (`withFetchWord`, `decodeTableWord`). -/
theorem test_placed_word_runs :
    (after (State.reset.withFetchWord 16 0x8123)).reg 1 = 0x0023 ∧ decodeTableWord 16 0x8123 = some (.set 1 0x23) := by
  decide

/-! ### Witnesses -/

/-- A word of `mov` and one of `not` with a nonzero ignored field, and words just past them. -/
theorem witness_ignored_field :
    (splitWord 0x1FFF).op.toNat < 2 ∧ (0x1FFF : Word) >>> 4 = (0x1FF0 : Word) >>> 4 ∧ 2 ≤ (splitWord 0x2000).op.toNat ∧
    (splitWord 0x0000).b = 0 := by decide

/-- `StepKeepsInvariant`: a running state that has the invariant. -/
theorem witness_invariant_running : State.Inv base ∧ step base = .next (after base) := by
  refine ⟨⟨by decide, ?_, ?_, ?_⟩, rfl⟩
  · intro h
    cases h
  · intro _ _ h
    cases h
  · intro h
    cases h

/-- `StepKeepsInvariant`: a halted and a faulted state that have the invariant. -/
theorem witness_invariant_ended :
    State.Inv (endRun .halted (base.setReg 15 0xFFFF)) ∧
    State.Inv (endRun (.faulted (.screenWriteOutOfRange 0x0010 0x0010)) base) := by
  refine ⟨⟨by decide, fun _ => by decide, ?_, ?_⟩, ⟨by decide, ?_, ?_, ?_⟩⟩
  · intro _ _ h
    cases h
  · intro h
    cases h
  · intro h
    cases h
  · intro pc x14 h
    cases h
    decide
  · intro h
    cases h

/-- `SessionStepAndHostMovesKeepInvariant`: a running session that has the invariant, with a stop asked for. -/
theorem witness_session_invariant : Session.Inv (hostMove .stop (session base)) := by
  refine ⟨witness_invariant_running.1, ?_, ?_, ?_, ?_⟩
  · intro h
    cases h
  · intro h
    cases h
  · intro _ h
    cases h
  · intro _ h
    cases h

/-- `ReachableStatesMeetInvariant`: a started core is reached, and so is its first step. -/
theorem witness_reachable : Reachable (sessionAfter (hostMove .start (session (bootState [])))) :=
  .step _ _ (.host _ .start (.boot [.ok ⟨.endOfFile, 0, []⟩] _ rfl)) rfl

/-- `SilentHostLeavesRunOfCore`: a host that has asked for nothing. -/
theorem witness_silent : (session base).host.stop = false ∧ (session base).host.notification = .quiet := by decide

/-- `InputSamplingFillsRegisterSix`: a state for each clause, the index at its ends. -/
theorem witness_sampling_clauses :
    ((withRegs [(13, 0x8000)] base).reg 13).getLsbD 15 = true ∧
    (base.reg 13).getLsbD 15 = false ∧ (base.reg 13).getLsbD 14 = false ∧
    ((withRegs [(13, 0x4000), (14, 0xFFFF)] base).reg 13).getLsbD 15 = false ∧
    ((withRegs [(13, 0x4000), (14, 0xFFFF)] base).reg 13).getLsbD 14 = true := by decide

/-- `OutputEmissionWritesOneByte` and `OutOfRangeEmissionDiscardsCycle`: off, RAM, the last screen byte, and the
first index past it. -/
theorem witness_emission_clauses :
    Memory.wf base.ram = true ∧ base.emitTarget = .off ∧
    (withRegs [(13, 0x8000), (14, 0xFFFF)] base).emitTarget = .ram 0xFFFF ∧
    (withRegs [(13, 0xC000), (14, 0x000F)] base).emitTarget = .screen 15 ∧
    (withRegs [(13, 0xC000), (14, 0x0010)] base).emitTarget = .outOfRange ∧
    (executed (.mov 0 0) (withRegs [(13, 0xC000), (14, 0x0010)] base)).emitTarget = .outOfRange ∧
    EmitsInRange (executed (.mov 0 0) (withRegs [(13, 0xC000), (14, 0x000F)] base)) := by decide

/-- `UnusedControlBitsChangeNothing`: a state that differs in bits 13:8 only, emitting and faulting. -/
theorem witness_unused_bits :
    (0xBF42 : Word) &&& 0xC0FF = (withRegs [(13, 0x8042)] base).reg 13 &&& 0xC0FF ∧
    (0xFF42 : Word) &&& 0xC0FF = (withRegs [(13, 0xC042), (14, 0x0010)] base).reg 13 &&& 0xC0FF ∧
    (outputEmit 0 (withRegs [(13, 0x8042)] base)).isOk = true ∧
    (outputEmit 0 (withRegs [(13, 0xC042), (14, 0x0010)] base)).isOk = false := by decide

/-- The cycle statements (`CompletedCycleIsCounted`, `ProgramCounterAfterCycle`,
`CycleWritesOneRegisterAndOneByte`): a PC destination that is written, one that is not, and another one, and the
address before the last. -/
theorem witness_cycle_clauses :
    base.wf = true ∧ EmitsInRange (executed (.mov 15 1) base) ∧
    operation (.mov 15 1) (inputSample base) = some 0 ∧ EmitsInRange (executed (.movex 15 1 1) base) ∧
    operation (.movex 15 1 1) (inputSample base) = none ∧ EmitsInRange (executed (.mov 1 2) base) ∧
    TakesCycle base ∧ TakesCycle (base.setReg 15 0xFFFE) ∧ base.current = .mov 0 0 ∧
    EmitsInRange (executed base.current base) := by decide

/-- `WrittenExactlyWhenTestHolds`: the last unconditional operation, and the ends of each test. -/
theorem witness_written :
    (opCode (Instr.seth 1 0).op).toNat < 10 ∧ base.reg 1 = 0x0000 ∧
    (withRegs [(1, 1)] base).reg 1 ≠ 0x0000 ∧ 0x8000 ≤ ((withRegs [(1, 0x8000)] base).reg 1).toNat ∧
    ((withRegs [(1, 0x7FFF)] base).reg 1).toNat < 0x8000 := by decide

/-- `RomIsNeverWritten`: a step that answers a next state, of the core and of a session. -/
theorem witness_rom : step base = .next (after base) ∧ (session base).step = .next (sessionAfter (session base)) :=
  ⟨rfl, rfl⟩

/-- `StepAlwaysAnswersNext`: a core that does not run. -/
theorem witness_not_running : State.reset.status ≠ .running ∧ (session State.reset).core.status ≠ .running := by decide

/-- `StepRunsDecodedInstruction` and `PlacedWordRunsNext`. -/
theorem witness_step_runs :
    base.status = .running ∧ base.pc ≠ 0xFFFF ∧ decodeWord (romRead base base.pc) = .mov 0 0 ∧ base.wf = true := by
  decide
/-- `StepRunsDecodedInstruction`: the instruction answers a next state. -/
theorem witness_step_runs_next : exec (.mov 0 0) base = .next (after base) := rfl

/-- `HaltsExactlyAtHaltPc` and `HostStopEndsRunAtBoundary`: at the halt PC and just before it, and a ready core. -/
theorem witness_boundary :
    (base.setReg 15 0xFFFF).status = .running ∧ (session (base.setReg 15 0xFFFF)).host.notification = .quiet ∧
    (base.setReg 15 0xFFFF).pc = 0xFFFF ∧ (base.setReg 15 0xFFFE).pc ≠ 0xFFFF ∧
    step (base.setReg 15 0xFFFE) = .next (after (base.setReg 15 0xFFFE)) ∧
    State.reset.status = .ready ∧ State.reset.pc ≠ 0xFFFF :=
  ⟨rfl, rfl, by decide, by decide, rfl, rfl, by decide⟩

/-- `NotifyErrorEndsRunAfterCycle` and `BlockedNotificationHoldsCore`. -/
theorem witness_notification :
    TakesCycle base ∧ EmitsInRange (executed base.current base) ∧ exec base.current base = .next (after base) ∧
    (sessionAfter (session base)).core.status = .running ∧
    (sessionAfter (session base)).host.notification = .issued :=
  ⟨by decide, by decide, rfl, by decide, by decide⟩

/-- `StartRunsReadyCoreOnce`: a core that waits, and one that runs. -/
theorem witness_start : (session State.reset).core.status = .ready ∧ (session base).core.status ≠ .ready := by decide

/-- `EndStatesAreFinal`: the three end states are reached. -/
theorem witness_end_states :
    (after (base.setReg 15 0xFFFF)).status = .halted ∧
    (after (withRegs [(13, 0xC001), (14, 0x0010)] base)).status = .faulted (.screenWriteOutOfRange 0x0010 0x0010) ∧
    (sessionAfter (hostMove .stop (session base))).core.status = .stopped .hostStop := by decide

/-- `StatusChangesOnlyByNamedEvents`: a change for each event. -/
theorem witness_status_changes :
    (hostMove .start (session State.reset)).core.status ≠ State.reset.status ∧
    (after (base.setReg 15 0xFFFF)).status ≠ .running ∧
    (after (withRegs [(13, 0xC001), (14, 0x0010)] base)).status ≠ .running ∧
    (sessionAfter (hostMove .stop (session base))).core.status ≠ .running ∧
    (sessionAfter (hostMove (.notifyFails ⟨""⟩) (sessionAfter (session base)))).core.status ≠ .running := by decide

/-- The unconditional instruction statements: a general destination, register 0, the input register, a
destination that steers emission, and the PC. -/
theorem witness_unconditional :
    base.wf = true ∧
    EmitsInRange ((inputSample base).setReg 1 0xFFFF) ∧ EmitsInRange ((inputSample base).setReg 0 0) ∧
    EmitsInRange ((inputSample base).setReg 6 0xFFFF) ∧
    EmitsInRange ((inputSample base).setReg 13 0xFFFF) ∧ EmitsInRange ((inputSample base).setReg 14 0xFFFF) ∧
    EmitsInRange ((inputSample base).setReg 15 0xFFFF) := by decide

/-- The conditional instruction statements: each test at both its ends, with the operands readable and the emission
in range. -/
theorem witness_conditional :
    (inputSample base).reg 1 = 0 ∧ ((inputSample base).reg 1).toNat < 0x8000 ∧
    (inputSample (withRegs [(1, 1)] base)).reg 1 ≠ 0 ∧
    ((inputSample (withRegs [(1, 0x7FFF)] base)).reg 1).toNat < 0x8000 ∧
    0x8000 ≤ ((inputSample (withRegs [(1, 0x8000)] base)).reg 1).toNat ∧
    (withRegs [(1, 0x8000)] base).wf = true ∧ EmitsInRange (inputSample (withRegs [(1, 0x8000)] base)) ∧
    EmitsInRange ((inputSample (withRegs [(1, 0x8000)] base)).setReg 15 0x7FFF) := by decide

/-- `ReadingPcGivesOwnAddress`. -/
theorem witness_reading_pc :
    EmitsInRange (executed (.mov 15 15) base) ∧ EmitsInRange (executed (.addi 1 15 15) base) ∧ base.pc ≠ 0 := by decide

/-- `SetThenSethBuildsConstant`: a general register, the output register, whose `seth` emits, and register 6 in a
cycle that does not sample. -/
theorem witness_set_seth :
    EmitsInRange (executed (.set 1 0x34) base) ∧ exec (.set 1 0x34) base = .next { after (vector 0x8134 []) with rom := [] } ∧
    EmitsInRange (executed (.seth 1 0x12) { after (vector 0x8134 []) with rom := [] }) ∧
    EmitsInRange (executed (.seth 13 0x80) { after (vector 0x8D34 []) with rom := [] }) ∧
    ((after (vector 0x8634 [(13, 0x8000)])).reg 13).getLsbD 15 = true ∧
    EmitsInRange (executed (.seth 6 0x12) (after (vector 0x8634 [(13, 0x8000)]))) :=
  ⟨by decide, rfl, by decide, by decide, by decide, by decide⟩

/-- `JumpToOwnAddressNeverHalts`: the examples of R145, a `seth` in its own page while emitting, and a conditional
that reads the input register. -/
theorem witness_own_address :
    JumpsToItself (vector 0x0FF0 []) ∧ JumpsToItself (vector 0x6FF0 []) ∧ JumpsToItself (vector 0x7FF0 []) ∧
    JumpsToItself (vector 0xAF01 []) ∧ JumpsToItself (vector 0x8F10 []) ∧
    JumpsToItself (vector 0x9F00 [(13, 0x8001)]) ∧ JumpsToItself (vector 0xCFF6 []) ∧ (vector 0x0FF0 []).wf = true :=
  ⟨⟨by decide, by decide, by decide, by decide⟩, ⟨by decide, by decide, by decide, by decide⟩,
   ⟨by decide, by decide, by decide, by decide⟩, ⟨by decide, by decide, by decide, by decide⟩,
   ⟨by decide, by decide, by decide, by decide⟩, ⟨by decide, by decide, by decide, by decide⟩,
   ⟨by decide, by decide, by decide, by decide⟩, by decide⟩

/-- `StraightLineRunAdvances`: one step from the last address, and three from another. -/
theorem witness_straight_line :
    (TakesCycle (base.setReg 15 0xFFFE) ∧ (base.setReg 15 0xFFFE).pc.toNat + 1 ≤ 65535) ∧
    TakesCycle base ∧ base.pc.toNat + 3 ≤ 65535 ∧
    ∀ k, k < 3 → (decodeWord (romRead base (base.pc + BitVec.ofNat 16 k))).dest ≠ 15 := by decide

/-- The loader statements: a good data record at the last address, an ignored one, an end of file, and the two bad
ones. -/
theorem witness_records :
    (∀ r ∈ ([⟨.data, 0xFFFE, [1, 2]⟩, ⟨.other 4, 0xFFFF, []⟩] : List Record),
      r.type ≠ .endOfFile ∧ (r.type = .data → r.data.length = 2 ∧ r.address.toNat < 65535)) ∧
    (Record.mk .endOfFile 0 []).type = .endOfFile ∧ (Record.mk .data 0 [1]).data.length ≠ 2 ∧
    65535 ≤ (Record.mk .data 0xFFFF [1, 2]).address.toNat := by decide

/-- `ImageTextReadsBack`: a record of an ignored type, with the longest data. -/
theorem witness_image :
    (List.replicate 255 (0 : Byte)).length < 256 ∧
    ∀ code, (Record.mk (.other 2) 0 (List.replicate 255 0)).type = .other code → code ≠ 0 ∧ code ≠ 1 := by
  refine ⟨(List.length_replicate (n := 255)).trans_lt (by decide), fun code h => ?_⟩
  cases h
  decide

/-- `AssembledFileLoadsInOrder`. -/
theorem witness_words : ([0x8123, 0x9145] : List Word).length ≤ 65535 := by decide

/-- `MnemonicSpellings` and `OperandCountMustMatch`: an unknown name, a comment, and a known name with a wrong and
with a right count. -/
theorem witness_assembler :
    mnemonicTable.length = 23 ∧ (∀ entry ∈ mnemonicTable, "jmp".toList ≠ entry.1.toList) ∧
    "jmp".toList.head? ≠ some '#' ∧ assembleTokens 1 ["movz".toList, "r1".toList, "r2".toList, "r3".toList] = .ok (some 0xC123) ∧
    ("#mov".toList.head? = some '#') ∧ lookupToken mnemonicTable "mov".toList = some .mov ∧
    "mov".toList.head? ≠ some '#' ∧ ["r1".toList].length ≠ (operandKinds .mov).length ∧
    ["r1".toList, "r99".toList].length = (operandKinds .mov).length ∧
    assembleTokens 1 ["mov".toList, "r1".toList, "r99".toList] = .error ⟨.unknownRegister, 1, "r99".toList⟩ := by decide

/-- `AssembleStopsAtFirstError`: a good line and a comment, then a bad line. -/
theorem witness_assemble_stops :
    ["mov r1 r2".toList, "# note".toList].map (assembleLine 1) = [some 0x0120, none].map Except.ok ∧
    assembleLine (["mov r1 r2".toList, "# note".toList].length + 1) "jmp r1".toList =
      .error ⟨.unknownMnemonic, 3, "jmp".toList⟩ := by decide

end Sys2Proof.Tests
end

section
/-! SUPPORT. The four fields of a word and back (R91, R92), the bytes of a word and back (R67), and the instruction
that a word decodes to, by its op field (R93, R94, R96). -/

namespace Sys2Proof

/-! ### A word and its fields -/

theorem splitWord_op_toNat (w : Word) : (splitWord w).op.toNat = w.toNat / 4096 % 16 := by
  simp [splitWord, Nat.shiftRight_eq_div_pow]

theorem splitWord_dest_toNat (w : Word) : (splitWord w).dest.toNat = w.toNat / 256 % 16 := by
  simp [splitWord, Nat.shiftRight_eq_div_pow]

theorem splitWord_a_toNat (w : Word) : (splitWord w).a.toNat = w.toNat / 16 % 16 := by
  simp [splitWord, Nat.shiftRight_eq_div_pow]

theorem splitWord_b_toNat (w : Word) : (splitWord w).b.toNat = w.toNat % 16 := by
  simp [splitWord]

theorem shiftRight_and_nibble (n k : Nat) : (n >>> k) &&& 0xF = n / 2 ^ k % 16 := by
  rw [Nat.shiftRight_eq_div_pow]
  exact Nat.and_two_pow_sub_one_eq_mod _ 4

/-- A nibble moved up by at most twelve places loses no bit of the word. -/
theorem toNat_setWidth_shiftLeft (n : Nibble) {k : Nat} (hk : k ≤ 12) :
    (n.setWidth 16 <<< k).toNat = n.toNat <<< k := by
  have hn : n.toNat * 2 ^ k < 2 ^ 16 :=
    calc n.toNat * 2 ^ k < 2 ^ 4 * 2 ^ k := Nat.mul_lt_mul_of_pos_right n.isLt (Nat.two_pow_pos k)
      _ ≤ 2 ^ 4 * 2 ^ 12 := Nat.mul_le_mul_left _ (Nat.pow_le_pow_right (by decide) hk)
  rw [BitVec.toNat_shiftLeft, BitVec.toNat_setWidth_of_le (by decide), Nat.shiftLeft_eq, Nat.mod_eq_of_lt hn]

theorem joinWord_toNat (f : Fields) :
    (joinWord f).toNat = (f.op.toNat <<< 12) ||| (f.dest.toNat <<< 8) ||| (f.a.toNat <<< 4) ||| f.b.toNat := by
  simp only [joinWord, BitVec.toNat_or, toNat_setWidth_shiftLeft, BitVec.toNat_setWidth_of_le, Nat.reduceLeDiff]

/-- The fields do not overlap, so joining them is adding them at their places. -/
theorem joinWord_toNat_eq_sum (f : Fields) :
    (joinWord f).toNat = 4096 * f.op.toNat + (256 * f.dest.toNat + (16 * f.a.toNat + f.b.toNat)) := by
  have hdest : f.dest.toNat < 16 := f.dest.isLt
  have ha : f.a.toNat < 16 := f.a.isLt
  have hb : f.b.toNat < 2 ^ 4 := f.b.isLt
  have hlow : 2 ^ 4 * f.a.toNat + f.b.toNat < 2 ^ 8 := by omega
  have hmid : 2 ^ 8 * f.dest.toNat + (2 ^ 4 * f.a.toNat + f.b.toNat) < 2 ^ 12 := by omega
  simp only [joinWord_toNat, Nat.shiftLeft_eq_mul_pow, Nat.or_assoc]
  rw [Nat.mul_comm _ (2 ^ 12), Nat.mul_comm _ (2 ^ 8), Nat.mul_comm _ (2 ^ 4), ← Nat.two_pow_add_eq_or_of_lt hb,
    ← Nat.two_pow_add_eq_or_of_lt hlow, ← Nat.two_pow_add_eq_or_of_lt hmid]
  norm_num

theorem Fields.eq_of_toNat_eq {f g : Fields} (hop : f.op.toNat = g.op.toNat) (hdest : f.dest.toNat = g.dest.toNat)
    (ha : f.a.toNat = g.a.toNat) (hb : f.b.toNat = g.b.toNat) : f = g := by
  cases f
  cases g
  simp_all [BitVec.toNat_inj]

@[simp] theorem splitWord_joinWord (f : Fields) : splitWord (joinWord f) = f := by
  apply Fields.eq_of_toNat_eq
  · rw [splitWord_op_toNat, joinWord_toNat_eq_sum]; omega
  · rw [splitWord_dest_toNat, joinWord_toNat_eq_sum]; omega
  · rw [splitWord_a_toNat, joinWord_toNat_eq_sum]; omega
  · rw [splitWord_b_toNat, joinWord_toNat_eq_sum]; omega

@[simp] theorem joinWord_splitWord (w : Word) : joinWord (splitWord w) = w := by
  apply BitVec.eq_of_toNat_eq
  rw [joinWord_toNat_eq_sum, splitWord_op_toNat, splitWord_dest_toNat, splitWord_a_toNat, splitWord_b_toNat]
  omega

/-! ### A word and its bytes -/

theorem wordOfBytes_toNat (b0 b1 : Byte) : (wordOfBytes b0 b1).toNat = 256 * b0.toNat + b1.toNat := by
  have h0 : b0.toNat < 256 := b0.isLt
  have hfit : b0.toNat * 2 ^ 8 < 2 ^ 16 := by omega
  rw [wordOfBytes, BitVec.toNat_or, BitVec.toNat_shiftLeft, BitVec.toNat_setWidth_of_le (by decide),
    BitVec.toNat_setWidth_of_le (by decide), Nat.shiftLeft_eq, Nat.mod_eq_of_lt hfit, Nat.mul_comm,
    ← Nat.two_pow_add_eq_or_of_lt b1.isLt]

/-- The two bytes of a word give it back, whatever follows them (R67). -/
@[simp] theorem decodeBytes_bytesOfWord_append (w : Word) (rest : List Byte) :
    decodeBytes (bytesOfWord w ++ rest) = .ok (decodeWord w, rest) := by
  have hw : wordOfBytes (w.extractLsb' 8 8) (w.extractLsb' 0 8) = w := by
    apply BitVec.eq_of_toNat_eq
    simp only [wordOfBytes_toNat, BitVec.extractLsb'_toNat, Nat.shiftRight_eq_div_pow]
    omega
  simp [bytesOfWord, decodeBytes, hw]

/-- A table word of the one length there is decodes as the word (R90). -/
theorem decodeTableWord_toNat (w : Word) : decodeTableWord 16 w.toNat = some (decodeWord w) := by
  have hw : BitVec.ofNat 16 (w.toNat % 2 ^ 16) = w := by
    rw [Nat.mod_eq_of_lt w.isLt, BitVec.ofNat_toNat, BitVec.setWidth_eq]
  have hdecode := decodeBytes_bytesOfWord_append w []
  rw [List.append_nil] at hdecode
  simp only [decodeTableWord, hw, hdecode, Nat.le_refl, if_true]

/-! ### The instruction of a word -/

theorem imm8OfNibbles_eq_append (a b : Nibble) : imm8OfNibbles a b = a ++ b := by
  revert a b
  decide

/-- The op field alone selects the operation: with its value known, the instruction is that row's (R96). -/
theorem decodeWord_of_op (w : Word) (n : Nibble) (h : (splitWord w).op = n) :
    decodeWord w = instrOfFields ⟨n, (splitWord w).dest, (splitWord w).a, (splitWord w).b⟩ := by
  subst h
  rfl

/-- Settles O2: the fields' values are quotients and remainders of the word, and the word is their sum. -/
theorem wordSplitsIntoNibbles : Obligations.WordSplitsIntoNibbles := by
  refine ⟨fun w => ⟨?_, ?_, ?_, ?_, joinWord_splitWord w⟩, fun f => ⟨joinWord_toNat f, splitWord_joinWord f⟩⟩
  · exact (splitWord_op_toNat w).trans (shiftRight_and_nibble _ 12).symm
  · exact (splitWord_dest_toNat w).trans (shiftRight_and_nibble _ 8).symm
  · exact (splitWord_a_toNat w).trans (shiftRight_and_nibble _ 4).symm
  · exact (splitWord_b_toNat w).trans (Nat.and_two_pow_sub_one_eq_mod _ 4).symm

/-- Settles O3: the two bytes of the word give it back, and each value of the op field picks its row of the opcode
map; only the 8-bit literals need a rewriting. -/
theorem everyWordIsAnInstruction : Obligations.EveryWordIsAnInstruction := by
  intro w
  have himm := imm8OfNibbles_eq_append (splitWord w).a (splitWord w).b
  exact ⟨decodeTableWord_toNat w, decodeWord_of_op w 0, decodeWord_of_op w 1, decodeWord_of_op w 2,
    decodeWord_of_op w 3, decodeWord_of_op w 4, decodeWord_of_op w 5, decodeWord_of_op w 6, decodeWord_of_op w 7,
    fun h => (decodeWord_of_op w 8 h).trans (congrArg (Instr.set _) himm),
    fun h => (decodeWord_of_op w 9 h).trans (congrArg (Instr.seth _) himm),
    decodeWord_of_op w 10, decodeWord_of_op w 11, decodeWord_of_op w 12, decodeWord_of_op w 13,
    decodeWord_of_op w 14, decodeWord_of_op w 15⟩

end Sys2Proof
end

section
/-! SUPPORT. What the assembler answers for the tokens of a line, by its first token (R101, R102, R104, R111). -/

namespace Sys2Proof.Machine

/-! ### Looking up a token -/

theorem lookupToken_eq_none_iff {α : Type} (table : List (String × α)) (token : List Char) :
    lookupToken table token = none ↔ ∀ entry ∈ table, entry.1.toList ≠ token := by
  induction table with
  | nil => simp [lookupToken]
  | cons entry rest ih =>
    by_cases h : entry.1.toList = token <;> simp [lookupToken, h, ih]

/-- The 23 spellings of R102 with their opcodes. -/
def spellingCodes : List (String × Nibble) :=
  [("mov", 0), ("move", 0), ("not", 1), ("and", 2), ("or", 3), ("add", 4), ("sub", 5), ("addi", 6), ("subi", 7),
    ("set", 8), ("seth", 9), ("incz", 10), ("inciz", 10), ("decn", 11), ("decin", 11), ("movz", 12), ("movez", 12),
    ("movx", 13), ("movex", 13), ("movp", 14), ("movep", 14), ("movn", 15), ("moven", 15)]

theorem mnemonicTable_eq_map_spellingCodes :
    mnemonicTable = spellingCodes.map fun entry => (entry.1, opOfNibble entry.2) := rfl

theorem lookupToken_of_mem_spellingCodes :
    ∀ entry ∈ spellingCodes, lookupToken mnemonicTable entry.1.toList = some (opOfNibble entry.2) := by
  decide

theorem head_ne_hash_of_mem_spellingCodes : ∀ entry ∈ spellingCodes, entry.1.toList.head? ≠ some '#' := by
  decide

theorem lookupToken_eq_none_of_not_spelling {name : List Char}
    (h : ∀ entry ∈ spellingCodes, name ≠ entry.1.toList) : lookupToken mnemonicTable name = none := by
  rw [lookupToken_eq_none_iff, mnemonicTable_eq_map_spellingCodes, List.forall_mem_map]
  exact fun entry hentry => (h entry hentry).symm

/-! ### The operands of a line -/

theorem operandField_error {kind : OperandKind} {token : List Char} {e : AsmErrorKind}
    (h : operandField kind token = .error e) : e = .unknownRegister ∨ e = .badLiteral := by
  cases kind with
  | reg =>
    cases hreg : lookupToken registerTable token with
    | none => exact .inl (by simpa [operandField, hreg] using h.symm)
    | some r => simp [operandField, hreg] at h
  | literal =>
    cases hbyte : literalByte token with
    | none => exact .inr (by simpa [operandField, hbyte] using h.symm)
    | some v => simp [operandField, hbyte] at h

/-- The only errors of the operands are those of one operand (R111). -/
theorem operandFields_error {line : Nat} {e : AsmError} {kinds : List OperandKind} {tokens : List (List Char)}
    (h : operandFields line kinds tokens = .error e) : e.kind = .unknownRegister ∨ e.kind = .badLiteral := by
  fun_induction operandFields line kinds tokens with
  | case1 kind kinds token tokens e' hfield =>
    obtain rfl : _ = e := Except.error.inj h
    exact operandField_error hfield
  | case2 kind kinds token tokens n hfield e' hrest ih => exact ih (hrest.trans h)
  | case3 => exact nomatch h
  | case4 => exact nomatch h

@[simp] theorem splitWord_wordOfOperands_op (op : Op) (fields : List Nibble) :
    (splitWord (wordOfOperands op fields)).op = opCode op := by
  simp [wordOfOperands]

/-! ### The tokens of a line -/

section
variable {line : Nat} {name : List Char} {operands : List (List Char)} {op : Op}

theorem assembleTokens_comment (hname : name.head? = some '#') : assembleTokens line (name :: operands) = .ok none := by
  obtain ⟨rest, rfl⟩ : ∃ rest, name = '#' :: rest := List.head?_eq_some_iff.mp hname
  rfl

theorem ne_hash_cons (hname : name.head? ≠ some '#') (rest : List Char) : name ≠ '#' :: rest := by
  rintro rfl
  exact hname rfl

theorem assembleTokens_unknown (hname : name.head? ≠ some '#') (hlookup : lookupToken mnemonicTable name = none) :
    assembleTokens line (name :: operands) = .error ⟨.unknownMnemonic, line, name⟩ := by
  simp [assembleTokens, ne_hash_cons hname, hlookup]

/-- A wrong operand count is reported before any operand is looked at (R104). -/
theorem assembleTokens_wrongCount (hname : name.head? ≠ some '#') (hlookup : lookupToken mnemonicTable name = some op)
    (hcount : operands.length ≠ (operandKinds op).length) :
    assembleTokens line (name :: operands) = .error ⟨.wrongOperandCount, line, name⟩ := by
  simp [assembleTokens, ne_hash_cons hname, hlookup, hcount]

theorem assembleTokens_operandError {e : AsmError} (hname : name.head? ≠ some '#')
    (hlookup : lookupToken mnemonicTable name = some op) (hcount : operands.length = (operandKinds op).length)
    (hfields : operandFields line (operandKinds op) operands = .error e) :
    assembleTokens line (name :: operands) = .error e := by
  simp [assembleTokens, ne_hash_cons hname, hlookup, hcount, hfields]

theorem assembleTokens_ok {fields : List Nibble} (hname : name.head? ≠ some '#')
    (hlookup : lookupToken mnemonicTable name = some op) (hcount : operands.length = (operandKinds op).length)
    (hfields : operandFields line (operandKinds op) operands = .ok fields) :
    assembleTokens line (name :: operands) = .ok (some (wordOfOperands op fields)) := by
  simp [assembleTokens, ne_hash_cons hname, hlookup, hcount, hfields]

/-- What a known mnemonic can give: a word of its operation, or an error of the operand count or of an operand. -/
theorem assembleTokens_of_known (hname : name.head? ≠ some '#') (hlookup : lookupToken mnemonicTable name = some op) :
    (∃ fields, assembleTokens line (name :: operands) = .ok (some (wordOfOperands op fields))) ∨
      ∃ e, assembleTokens line (name :: operands) = .error e ∧
        (e.kind = .wrongOperandCount ∨ e.kind = .unknownRegister ∨ e.kind = .badLiteral) := by
  by_cases hcount : operands.length = (operandKinds op).length
  · cases hfields : operandFields line (operandKinds op) operands with
    | ok fields => exact .inl ⟨fields, assembleTokens_ok hname hlookup hcount hfields⟩
    | error e =>
      exact .inr ⟨e, assembleTokens_operandError hname hlookup hcount hfields, .inr (operandFields_error hfields)⟩
  · exact .inr ⟨_, assembleTokens_wrongCount hname hlookup hcount, .inl rfl⟩

end

/-- Settles O49: each spelling is found in the mnemonic table, whose names are the 23 spellings and no more, and a known
mnemonic gives a word of its operation or another error than `unknownMnemonic`. -/
theorem mnemonicSpellings : Obligations.MnemonicSpellings := by
  refine ⟨fun entry hentry => ⟨lookupToken_of_mem_spellingCodes entry hentry, fun n operands => ?_⟩,
    fun n name operands => ⟨assembleTokens_comment, fun hspelling hname =>
      assembleTokens_unknown hname (lookupToken_eq_none_of_not_spelling hspelling)⟩⟩
  have hname := head_ne_hash_of_mem_spellingCodes entry hentry
  have hlookup := lookupToken_of_mem_spellingCodes entry hentry
  obtain ⟨fields, hok⟩ | ⟨e, herror, hkind⟩ := assembleTokens_of_known (line := n) (operands := operands) hname hlookup
  · refine ⟨fun r hr => ?_, fun e he => ?_⟩
    · have hword : some (wordOfOperands (opOfNibble entry.2) fields) = r := Except.ok.inj (hok.symm.trans hr)
      exact ⟨_, hword.symm, by simp⟩
    · exact nomatch hok.symm.trans he
  · refine ⟨fun r hr => (nomatch herror.symm.trans hr), fun e' he' => ?_⟩
    obtain rfl : e = e' := Except.error.inj (herror.symm.trans he')
    obtain h | h | h := hkind <;> simp [h]

end Sys2Proof.Machine
end

section
/-! SUPPORT. The PC that a completed cycle leaves (R136), in any state: the memories need no canonical form for it. -/

namespace Sys2Proof.Machine

/-! ### The PC after a cycle -/

theorem writeBack_pc_of_ne {dest : RegIdx} (h : dest ≠ pcReg) (result : Option Word) (s : State) :
    (writeBack dest result s).pc = s.pc :=
  writeBack_reg_of_ne h.symm result s

theorem outputEmit_pc {pc : Word} {e u : State} (h : outputEmit pc e = .ok u) : u.pc = e.pc := by
  obtain ⟨-, h'⟩ | ⟨hr, -⟩ := outputEmit_cases pc e
  · exact nomatch h'.symm.trans h
  · obtain ⟨u', hu', hreg, -⟩ := outputEmit_completes (pc := pc) hr
    obtain rfl : u' = u := Except.ok.inj (hu'.symm.trans h)
    exact hreg pcReg

/-- The PC update after a write-back, whatever the state in between did to the rest: the value written to the PC, or
the next address. -/
theorem pcUpdate_pc_of_writeBack {dest : RegIdx} {result : Option Word} {t emitted : State}
    (h : emitted.pc = (writeBack dest result t).pc) :
    (pcUpdate dest result.isSome emitted).pc = if dest = pcReg then result.getD (t.pc + 1) else t.pc + 1 := by
  rw [pcUpdate_pc, h]
  by_cases hdest : dest = pcReg
  · subst hdest
    cases result with
    | none => simp
    | some v => simp [State.pc]
  · simp [hdest, writeBack_pc_of_ne]

/-- A cycle whose emission is in range leaves in the PC the value written there, or else the address after the fetch
address. -/
theorem runCycle_pc {dest : RegIdx} {op : State → Option Word} {s : State}
    (hr : EmitsInRange (writeBack dest (op (inputSample s)) (inputSample s))) :
    (runCycle dest op s).pc = if dest = pcReg then (op (inputSample s)).getD (s.pc + 1) else s.pc + 1 := by
  obtain ⟨ht, -⟩ | ⟨emitted, -, hemit, hrun⟩ := runCycle_cases dest op s
  · exact absurd ht hr
  · have hcount : (runCycle dest op s).pc = (pcUpdate dest (op (inputSample s)).isSome emitted).pc := by
      rw [hrun, State.pc, countCycle_reg, State.pc]
    rw [hcount, pcUpdate_pc_of_writeBack (outputEmit_pc hemit), inputSample_pc]

/-- A cycle that is due fetches below 0xFFFF, so the next address does not wrap. -/
theorem pc_add_one_toNat_of_takesCycle {s : State} (h : TakesCycle s) : (s.pc + 1).toNat = s.pc.toNat + 1 := by
  have hne : s.pc ≠ 0xFFFF := ((takesCycle_iff s).mp h).2
  bv_omega

/-- Settles O17: every meaning is a cycle, and the PC after a cycle is the value written to register 15 or the next
address. -/
theorem programCounterAfterCycle : Obligations.ProgramCounterAfterCycle := by
  intro i s hr
  have hpc := runCycle_pc (dest := i.dest) (op := operation i) hr
  refine ⟨_, exec_eq_runCycle i s, fun hdest => ?_, fun v hdest hv => ?_, fun hdest hv => ?_,
    pc_add_one_toNat_of_takesCycle⟩
  · exact hpc.trans (if_neg hdest)
  · exact (hpc.trans (if_pos hdest)).trans (by rw [hv, Option.getD_some])
  · exact (hpc.trans (if_pos hdest)).trans (by rw [hv, Option.getD_none])

end Sys2Proof.Machine
end

section
/-! SUPPORT. The completed cycle of an instruction that writes its destination, for any instruction (R134, R136), and the
results of the eight register and ALU operations (R150 to R158). -/

namespace Sys2Proof.Machine

/-! ### The cycle of an instruction that writes -/

@[simp] theorem decodeWord_joinWord (f : Fields) : decodeWord (joinWord f) = instrOfFields f := by
  rw [decodeWord, splitWord_joinWord]

/-- A cycle whose operation writes `v`, with emission in range, completes and writes `v` to the destination. -/
theorem runCycle_writesRegister {dest : RegIdx} {op : State → Option Word} {v : Word} {s : State} (hwf : s.wf = true)
    (hv : op (inputSample s) = some v) (hr : EmitsInRange ((inputSample s).setReg dest v)) :
    WritesRegister dest v s (runCycle dest op s) := by
  have he : (inputSample s).setReg dest v = writeBack dest (op (inputSample s)) (inputSample s) := by
    rw [hv, writeBack_some]
  have hram : Memory.wf s.ram = true := (Bool.and_eq_true_iff.mp hwf).2
  have hpc := runCycle_pc (he ▸ hr)
  obtain ⟨hregs, -, heffects⟩ := runCycle_completes he hr hram
  refine ⟨?_, fun hdest => hpc.trans (if_neg hdest), fun r hdest hreg => ?_, heffects⟩
  · by_cases hdest : dest = pcReg
    · rw [if_pos hdest, hv, Option.getD_some] at hpc
      rw [hdest] at hpc ⊢
      exact hpc
    · rw [hregs dest hdest, reg_setReg, if_pos rfl]
  · rw [hregs r hreg, reg_setReg, if_neg hdest]

/-- What any instruction with a result does when its emission is in range. -/
theorem exec_writesRegister {i : Instr} {v : Word} {s : State} (hwf : s.wf = true)
    (hv : operation i (inputSample s) = some v) (hr : EmitsInRange ((inputSample s).setReg i.dest v)) :
    ∃ u, exec i s = .next u ∧ WritesRegister i.dest v s u :=
  ⟨_, exec_eq_runCycle i s, runCycle_writesRegister hwf hv hr⟩

/-! ### The results -/

theorem not_eq_xor_ffff (v : Word) : ~~~ v = v ^^^ 0xFFFF :=
  BitVec.xor_allOnes.symm

/-- Subtraction adds the complement and one (R155). -/
theorem sub_eq_add_xor_ffff_add_one (v w : Word) : v - w = v + (w ^^^ 0xFFFF) + 1 := by
  rw [BitVec.sub_eq_add_neg, BitVec.neg_eq_not_add, not_eq_xor_ffff, BitVec.add_assoc]
  rfl

theorem add_eq_ofNat_mod (v w : Word) : v + w = BitVec.ofNat 16 ((v.toNat + w.toNat) % 2 ^ 16) := by
  apply BitVec.eq_of_toNat_eq
  rw [BitVec.toNat_add, BitVec.toNat_ofNat, Nat.mod_mod]

theorem sub_eq_ofNat_mod (v w : Word) : v - w = BitVec.ofNat 16 ((v.toNat + 2 ^ 16 - w.toNat) % 2 ^ 16) := by
  have hw : w.toNat < 2 ^ 16 := w.isLt
  have hcomm : 2 ^ 16 - w.toNat + v.toNat = v.toNat + 2 ^ 16 - w.toNat := by omega
  apply BitVec.eq_of_toNat_eq
  rw [BitVec.toNat_sub, BitVec.toNat_ofNat, Nat.mod_mod, hcomm]

/-- A 4-bit literal keeps its value 0 to 15: it is not sign-extended (R95). -/
@[simp] theorem literalOperand_toNat (k : Nibble) : (literalOperand k).toNat = k.toNat :=
  BitVec.toNat_setWidth_of_le (by decide)

theorem addiValue_eq (a : RegIdx) (k : Nibble) (t : State) :
    addiValue a k t = some (BitVec.ofNat 16 (((t.reg a).toNat + k.toNat) % 2 ^ 16)) := by
  rw [addiValue, regOperand, add_eq_ofNat_mod, literalOperand_toNat]

theorem subiValue_eq (a : RegIdx) (k : Nibble) (t : State) :
    subiValue a k t = some (BitVec.ofNat 16 (((t.reg a).toNat + 2 ^ 16 - k.toNat) % 2 ^ 16)) := by
  rw [subiValue, regOperand, sub_eq_ofNat_mod, literalOperand_toNat]

/-! ### The eight operations -/

/-- Settles O31: both write, and complementing is exclusive-or with 0xFFFF. -/
theorem movAndNotWriteSource : Obligations.MovAndNotWriteSource := by
  intro d a ignored s hwf
  have hnot : operation (.not d a) (inputSample s) = some ((inputSample s).reg a ^^^ 0xFFFF) :=
    congrArg some (not_eq_xor_ffff _)
  exact ⟨decodeWord_joinWord _, decodeWord_joinWord _, exec_writesRegister (i := .mov d a) hwf rfl,
    exec_writesRegister (i := .not d a) hwf hnot⟩

/-- Settles O32: both write the result the model computes. -/
theorem andAndOrWriteBitwiseResult : Obligations.AndAndOrWriteBitwiseResult := by
  intro d a b s hwf
  exact ⟨decodeWord_joinWord _, decodeWord_joinWord _, exec_writesRegister (i := .and d a b) hwf rfl,
    exec_writesRegister (i := .or d a b) hwf rfl⟩

/-- Settles O33: the word sum is the sum modulo 2^16, and the word difference adds the complement and one. -/
theorem addAndSubWriteModularResult : Obligations.AddAndSubWriteModularResult := by
  intro d a b s hwf t sum difference
  have hsum : operation (.add d a b) t = some sum := congrArg some (add_eq_ofNat_mod _ _)
  have hdifference : operation (.sub d a b) t = some difference := congrArg some (sub_eq_add_xor_ffff_add_one _ _)
  exact ⟨decodeWord_joinWord _, decodeWord_joinWord _, exec_writesRegister (i := .add d a b) hwf hsum,
    exec_writesRegister (i := .sub d a b) hwf hdifference⟩

/-- Settles O34: the literal counts as its value 0 to 15 in a sum and a difference modulo 2^16. -/
theorem addiAndSubiUseUnsignedLiteral : Obligations.AddiAndSubiUseUnsignedLiteral := by
  intro d a k s hwf
  exact ⟨decodeWord_joinWord _, decodeWord_joinWord _,
    exec_writesRegister (i := .addi d a k) hwf (addiValue_eq a k _),
    exec_writesRegister (i := .subi d a k) hwf (subiValue_eq a k _)⟩

end Sys2Proof.Machine
end

section
/-! SUPPORT. The 8-bit literal as a number, its two places in a word, and the results of the two immediate operations
(R95, R170, R171). -/

namespace Sys2Proof.Machine

/-! ### An 8-bit literal in a word -/

/-- The literal's two fields, the high nibble first, are its value (R95). -/
theorem nibbles_append_toNat (h l : Nibble) : (h ++ l).toNat = 16 * h.toNat + l.toNat := by
  rw [BitVec.toNat_append, Nat.shiftLeft_eq_mul_pow, Nat.mul_comm, ← Nat.two_pow_add_eq_or_of_lt l.isLt]

/-- An 8-bit literal keeps its value 0 to 255: the high byte of the word is 0 (R95). -/
@[simp] theorem literal8Operand_toNat (k : Byte) : (literal8Operand k).toNat = k.toNat :=
  BitVec.toNat_setWidth_of_le (by decide)

/-- Replacing the high byte is joining the new byte with the old low byte: the masks of R171 lose nothing. -/
theorem withHighByte_eq_wordOfBytes (v : Word) (k : Byte) : withHighByte v k = wordOfBytes k (v.extractLsb' 0 8) := by
  have hlow : v &&& 0x00FF = (v.extractLsb' 0 8).setWidth 16 := by
    apply BitVec.eq_of_toNat_eq
    rw [BitVec.toNat_and, BitVec.toNat_setWidth_of_le (by decide), BitVec.extractLsb'_toNat]
    exact Nat.and_two_pow_sub_one_eq_mod _ 8
  have hhigh : (k.setWidth 16 <<< 8) &&& 0xFF00 = k.setWidth 16 <<< 8 := by
    revert k
    decide
  exact (congrArg₂ (· ||| ·) hlow hhigh).trans (BitVec.or_comm _ _)

theorem withHighByte_toNat (v : Word) (k : Byte) : (withHighByte v k).toNat = 256 * k.toNat + v.toNat % 256 := by
  rw [withHighByte_eq_wordOfBytes, wordOfBytes_toNat, BitVec.extractLsb'_toNat, Nat.shiftRight_zero]

/-! ### The two operations -/

theorem setValue_eq (h l : Nibble) (t : State) :
    setValue (h ++ l) t = some (BitVec.ofNat 16 (16 * h.toNat + l.toNat)) := by
  rw [setValue, ← nibbles_append_toNat, ← literal8Operand_toNat, BitVec.ofNat_toNat, BitVec.setWidth_eq]

theorem sethValue_eq (d : RegIdx) (h l : Nibble) (t : State) :
    sethValue d (h ++ l) t =
      some (BitVec.ofNat 16 (256 * (16 * h.toNat + l.toNat) + (t.reg d).toNat % 256)) := by
  rw [sethValue, regOperand, ← nibbles_append_toNat, ← withHighByte_toNat, BitVec.ofNat_toNat, BitVec.setWidth_eq]

/-- Settles O35: the literal's value is its two nibbles, and zero extension keeps it. -/
theorem setWritesZeroExtendedLiteral : Obligations.SetWritesZeroExtendedLiteral := by
  intro d h l s hwf
  have hdecode := (decodeWord_joinWord ⟨8, nibbleOfReg d, h, l⟩).trans
    (congrArg (Instr.set d) (imm8OfNibbles_eq_append h l))
  exact ⟨hdecode, exec_writesRegister (i := .set d (h ++ l)) hwf (setValue_eq h l (inputSample s))⟩

/-- Settles O36: the literal's value counts 256 times, beside the low byte of the sampled destination. -/
theorem sethWritesHighByte : Obligations.SethWritesHighByte := by
  intro d h l s hwf
  have hdecode := (decodeWord_joinWord ⟨9, nibbleOfReg d, h, l⟩).trans
    (congrArg (Instr.seth d) (imm8OfNibbles_eq_append h l))
  exact ⟨hdecode, exec_writesRegister (i := .seth d (h ++ l)) hwf (sethValue_eq d h l _)⟩

end Sys2Proof.Machine
end

section
/-! SUPPORT. The completed cycle of an instruction that writes no register (R134, R136), the two tests of a conditional
operation, and the results of the six conditional operations (R180 to R186). -/

namespace Sys2Proof.Machine

/-! ### The cycle of an instruction that writes nothing -/

/-- A cycle whose operation writes nothing, with emission in range, completes and only advances the PC. -/
theorem runCycle_writesNothing {dest : RegIdx} {op : State → Option Word} {s : State} (hwf : s.wf = true)
    (hnone : op (inputSample s) = none) (hr : EmitsInRange (inputSample s)) :
    WritesNothing s (runCycle dest op s) := by
  have he : inputSample s = writeBack dest (op (inputSample s)) (inputSample s) := by
    rw [hnone, writeBack_none]
  have hram : Memory.wf s.ram = true := (Bool.and_eq_true_iff.mp hwf).2
  have hpc := runCycle_pc (he ▸ hr)
  rw [hnone, Option.getD_none, ite_self] at hpc
  obtain ⟨hregs, -, heffects⟩ := runCycle_completes he hr hram
  exact ⟨hpc, hregs, heffects⟩

/-- What any instruction without a result does when its emission is in range. -/
theorem exec_writesNothing {i : Instr} {s : State} (hwf : s.wf = true) (hnone : operation i (inputSample s) = none)
    (hr : EmitsInRange (inputSample s)) : ∃ u, exec i s = .next u ∧ WritesNothing s u :=
  ⟨_, exec_eq_runCycle i s, runCycle_writesNothing hwf hnone hr⟩

/-! ### The two tests -/

theorem isZero_iff (v : Word) : isZero v = true ↔ v = 0 :=
  decide_eq_true_iff

/-- Bit 15 is set exactly in the upper half of the words (R10, R186). -/
theorem isNegative_iff (v : Word) : isNegative v = true ↔ 0x8000 ≤ v.toNat := by
  have hbit : v &&& 0x8000 = if v.msb then 0x8000 else 0 := BitVec.and_twoPow v 15
  have hmsb : v.msb = true ↔ 0x8000 ≤ v.toNat := by rw [BitVec.msb_eq_decide, decide_eq_true_iff]
  rw [isNegative, decide_eq_true_iff, hbit, ← hmsb]
  cases v.msb <;> decide

/-! ### The results -/

theorem incizValue_eq (d : RegIdx) (k : Nibble) (b : RegIdx) (t : State) :
    incizValue d k b t =
      if t.reg b = 0 then some (BitVec.ofNat 16 (((t.reg d).toNat + k.toNat) % 2 ^ 16)) else none := by
  simp only [incizValue, writeIf, regOperand, isZero_iff, add_eq_ofNat_mod, literalOperand_toNat]

theorem decinValue_eq (d : RegIdx) (k : Nibble) (b : RegIdx) (t : State) :
    decinValue d k b t =
      if 0x8000 ≤ (t.reg b).toNat then some (BitVec.ofNat 16 (((t.reg d).toNat + 2 ^ 16 - k.toNat) % 2 ^ 16))
      else none := by
  simp only [decinValue, writeIf, regOperand, isNegative_iff, sub_eq_ofNat_mod, literalOperand_toNat]

theorem movezValue_eq (a b : RegIdx) (t : State) :
    movezValue a b t = if t.reg b = 0 then some (t.reg a) else none := by
  simp only [movezValue, writeIf, regOperand, isZero_iff]

theorem movexValue_eq (a b : RegIdx) (t : State) :
    movexValue a b t = if t.reg b ≠ 0 then some (t.reg a) else none := by
  simp only [movexValue, writeIf, regOperand, Bool.not_eq_true', ← Bool.not_eq_true, isZero_iff, ne_eq]

theorem movepValue_eq (a b : RegIdx) (t : State) :
    movepValue a b t = if (t.reg b).toNat < 0x8000 then some (t.reg a) else none := by
  simp only [movepValue, writeIf, regOperand, Bool.not_eq_true', ← Bool.not_eq_true, isNegative_iff, not_le]

theorem movenValue_eq (a b : RegIdx) (t : State) :
    movenValue a b t = if 0x8000 ≤ (t.reg b).toNat then some (t.reg a) else none := by
  simp only [movenValue, writeIf, regOperand, isNegative_iff]

/-! ### The six operations -/

/-- Settles O37: where the test holds each counts by the literal modulo 2^16, and where it fails nothing is written. -/
theorem incizAndDecinCountWhenTestHolds : Obligations.IncizAndDecinCountWhenTestHolds := by
  intro d k b s hwf t sum difference
  have hinciz : operation (.inciz d k b) t = if t.reg b = 0 then some sum else none := incizValue_eq d k b t
  have hdecin : operation (.decin d k b) t = if 0x8000 ≤ (t.reg b).toNat then some difference else none :=
    decinValue_eq d k b t
  refine ⟨decodeWord_joinWord _, decodeWord_joinWord _, fun htest => ?_, fun htest => ?_, fun htest => ?_,
    fun htest => ?_⟩
  · exact exec_writesRegister (i := .inciz d k b) hwf (hinciz.trans (if_pos htest))
  · exact exec_writesNothing hwf (hinciz.trans (if_neg htest))
  · exact exec_writesRegister (i := .decin d k b) hwf (hdecin.trans (if_pos htest))
  · exact exec_writesNothing hwf (hdecin.trans (if_neg htest.not_ge))

/-- Settles O38: each moves where its test for zero holds, the two tests being complementary. -/
theorem movezAndMovexTestForZero : Obligations.MovezAndMovexTestForZero := by
  intro d a b s hwf t
  have hmovez : operation (.movez d a b) t = if t.reg b = 0 then some (t.reg a) else none := movezValue_eq a b t
  have hmovex : operation (.movex d a b) t = if t.reg b ≠ 0 then some (t.reg a) else none := movexValue_eq a b t
  refine ⟨decodeWord_joinWord _, decodeWord_joinWord _, fun htest => ?_, fun htest => ?_, fun htest => ?_,
    fun htest => ?_⟩
  · exact exec_writesRegister (i := .movez d a b) hwf (hmovez.trans (if_pos htest))
  · exact exec_writesNothing hwf (hmovez.trans (if_neg htest))
  · exact exec_writesRegister (i := .movex d a b) hwf (hmovex.trans (if_pos htest))
  · exact exec_writesNothing hwf (hmovex.trans (if_neg (not_not_intro htest)))

/-- Settles O39: each moves where its test of the sign holds, zero being on the not-negative side. -/
theorem movepAndMovenTestTheSign : Obligations.MovepAndMovenTestTheSign := by
  intro d a b s hwf t
  have hmovep : operation (.movep d a b) t = if (t.reg b).toNat < 0x8000 then some (t.reg a) else none :=
    movepValue_eq a b t
  have hmoven : operation (.moven d a b) t = if 0x8000 ≤ (t.reg b).toNat then some (t.reg a) else none :=
    movenValue_eq a b t
  refine ⟨decodeWord_joinWord _, decodeWord_joinWord _, fun htest => ?_, fun htest => ?_, fun htest => ?_,
    fun htest => ?_⟩
  · exact exec_writesRegister (i := .movep d a b) hwf (hmovep.trans (if_pos htest))
  · exact exec_writesNothing hwf (hmovep.trans (if_neg htest.not_gt))
  · exact exec_writesRegister (i := .moven d a b) hwf (hmoven.trans (if_pos htest))
  · exact exec_writesNothing hwf (hmoven.trans (if_neg htest.not_ge))

end Sys2Proof.Machine
end

section
/-! SUPPORT. What a booted core holds (R230, R233): the loaded ROM, and 0 everywhere else.  The core as created is the one
booted with no word loaded. -/

namespace Sys2Proof.Machine

theorem bootState_nil : bootState [] = State.reset := rfl

@[simp] theorem bootState_reg (rom : Sparse 16) (r : RegIdx) : (bootState rom).reg r = 0 :=
  Vector.getElem_replicate (n := 16) r.isLt

@[simp] theorem romRead_bootState (rom : Sparse 16) (a : Word) : romRead (bootState rom) a = sparseRead rom a.toNat := rfl

@[simp] theorem ramRead_bootState (rom : Sparse 16) (a : Word) : ramRead (bootState rom) a = 0 := rfl

@[simp] theorem screenRead_bootState (rom : Sparse 16) (i : Fin 16) : screenRead (bootState rom) i = 0 :=
  Vector.getElem_replicate (n := 16) i.isLt

@[simp] theorem bootState_clock (rom : Sparse 16) : (bootState rom).clock = 0 := rfl

/-- Settles O7: a booted core is 0 outside its ROM, and a created core is one booted with a ROM of zeros. -/
theorem resetLeavesEverythingZero : Obligations.ResetLeavesEverythingZero := by
  unfold Obligations.ResetLeavesEverythingZero
  rw [← bootState_nil]
  have hrom : ∀ a, romRead (bootState []) a = 0 := fun a => romRead_bootState [] a
  exact ⟨bootState_reg [], hrom, ramRead_bootState [], screenRead_bootState [], bootState_clock [], fun rom =>
    ⟨bootState_reg rom, romRead_bootState rom, ramRead_bootState rom, screenRead_bootState rom, bootState_clock rom⟩⟩

end Sys2Proof.Machine
end

section
/-! SUPPORT. An instruction and its fields, both ways (R92, R94), and the ignored field of `mov` and `not` (R94, R97,
R108). -/

namespace Sys2Proof

open Sys2Proof.Machine

/-! ### From an instruction to its fields and back -/

/-- The fields of every instruction carry its operation and its operands: the family `FieldsKept`, put together. -/
theorem fieldsKept (i : Instr) : Laws.FieldsKept.Statement i := by
  cases i with
  | mov d a => exact Laws.FieldsKept.mov d a
  | not d a => exact Laws.FieldsKept.not d a
  | and d a b => exact Laws.FieldsKept.and d a b
  | or d a b => exact Laws.FieldsKept.or d a b
  | add d a b => exact Laws.FieldsKept.add d a b
  | sub d a b => exact Laws.FieldsKept.sub d a b
  | addi d a k => exact Laws.FieldsKept.addi d a k
  | subi d a k => exact Laws.FieldsKept.subi d a k
  | set d k => exact Laws.FieldsKept.set d k
  | seth d k => exact Laws.FieldsKept.seth d k
  | inciz d k b => exact Laws.FieldsKept.inciz d k b
  | decin d k b => exact Laws.FieldsKept.decin d k b
  | movez d a b => exact Laws.FieldsKept.movez d a b
  | movex d a b => exact Laws.FieldsKept.movex d a b
  | movep d a b => exact Laws.FieldsKept.movep d a b
  | moven d a b => exact Laws.FieldsKept.moven d a b

@[simp] theorem instrOfFields_fieldsOfInstr (i : Instr) : instrOfFields (fieldsOfInstr i) = i :=
  (fieldsKept i).1

@[simp] theorem decodeWord_encode (i : Instr) : decodeWord (encode i) = i :=
  (decodeWord_joinWord _).trans (instrOfFields_fieldsOfInstr i)

/-- Settles O4: a word's fields, its bytes and its table word each give it back, and its fields give the instruction. -/
theorem decodeUndoesEncode : Obligations.DecodeUndoesEncode := by
  intro i
  refine ⟨decodeWord_encode i, fun rest => ?_, ?_⟩
  · rw [encodeBytes, decodeBytes_bytesOfWord_append, decodeWord_encode]
  · rw [decodeTableWord_toNat, decodeWord_encode]

/-! ### From fields to the instruction and back -/

/-- The fields with the ignored field of `mov` and `not` cleared, as the encoder writes it (R94, R108). -/
def clearIgnored (f : Fields) : Fields := if f.op.toNat < 2 then ⟨f.op, f.dest, f.a, 0⟩ else f

/-- The formats with an ignored field are the first two rows of the opcode map (R94). -/
theorem opCode_toNat_lt_two_iff (o : Op) : (opCode o).toNat < 2 ↔ o = .mov ∨ o = .not := by
  cases o <;> decide

theorem fieldsOfInstr_instrOfFields (f : Fields) : fieldsOfInstr (instrOfFields f) = clearIgnored f := by
  obtain ⟨op, d, a, b⟩ := f
  obtain ⟨o, rfl⟩ : ∃ o, op = opCode o := ⟨opOfNibble op, (opCode_opOfNibble op).symm⟩
  simp only [clearIgnored, opCode_toNat_lt_two_iff]
  cases o <;> simp [instrOfFields, fieldsOfInstr]

@[simp] theorem clearIgnored_op (f : Fields) : (clearIgnored f).op = f.op := by
  rw [clearIgnored, apply_ite Fields.op, ite_self]

/-- Masking with 0xFFF0 clears the last field and no other. -/
theorem splitWord_and_FFF0 (w : Word) :
    splitWord (w &&& 0xFFF0) = ⟨(splitWord w).op, (splitWord w).dest, (splitWord w).a, 0⟩ := by
  have hones : ∀ n : Nibble, n &&& 15 = n := by decide
  simp only [splitWord, BitVec.extractLsb'_and]
  exact congr (congr (congrArg₂ Fields.mk (hones _) (hones _)) (hones _)) (BitVec.and_zero)

theorem joinWord_clearIgnored (w : Word) :
    joinWord (clearIgnored (splitWord w)) = if (splitWord w).op.toNat < 2 then w &&& 0xFFF0 else w := by
  rw [clearIgnored, ← splitWord_and_FFF0, apply_ite joinWord, joinWord_splitWord, joinWord_splitWord]

/-- Settles O5: the fields come back with the ignored one cleared, which is the mask 0xFFF0 on the word. -/
theorem encodeUndoesDecode : Obligations.EncodeUndoesDecode := by
  intro w
  rw [encode, decodeWord, fieldsOfInstr_instrOfFields, joinWord_clearIgnored]

/-! ### Words that are one instruction -/

theorem decodeWord_eq_iff_encode_eq (w v : Word) :
    decodeWord w = decodeWord v ↔ encode (decodeWord w) = encode (decodeWord v) :=
  ⟨congrArg encode, fun h => by simpa using congrArg decodeWord h⟩

theorem splitWord_op_encode_decodeWord (w : Word) : (splitWord (encode (decodeWord w))).op = (splitWord w).op := by
  rw [encode, splitWord_joinWord, decodeWord, fieldsOfInstr_instrOfFields, clearIgnored_op]

/-- Shifting the last field out loses as much as clearing it. -/
theorem shiftRight_four_eq_iff (w v : Word) : w >>> 4 = v >>> 4 ↔ w &&& 0xFFF0 = v &&& 0xFFF0 := by
  have hclear : ∀ u : Word, (u &&& 0xFFF0).toNat = 16 * (u >>> 4).toNat := fun u => by
    rw [← joinWord_splitWord (u &&& 0xFFF0), splitWord_and_FFF0, joinWord_toNat_eq_sum, splitWord_op_toNat,
      splitWord_dest_toNat, splitWord_a_toNat, BitVec.toNat_ushiftRight, Nat.shiftRight_eq_div_pow]
    have hu : u.toNat < 65536 := u.isLt
    have hzero : (0 : Nibble).toNat = 0 := rfl
    dsimp only
    omega
  rw [← BitVec.toNat_inj, ← BitVec.toNat_inj (x := w &&& 0xFFF0), hclear, hclear]
  omega

theorem splitWord_op_of_shiftRight_eq {w v : Word} (h : w >>> 4 = v >>> 4) : (splitWord w).op = (splitWord v).op := by
  have hmask := congrArg (fun u => (splitWord u).op) ((shiftRight_four_eq_iff w v).mp h)
  simpa only [splitWord_and_FFF0] using hmask

/-- Settles O6: two words are one instruction when they are one word after the ignored field is cleared, and then their
op fields agree. -/
theorem onlyIgnoredFieldSharesInstruction : Obligations.OnlyIgnoredFieldSharesInstruction := by
  intro w v
  rw [decodeWord_eq_iff_encode_eq]
  constructor
  · intro h
    have hop := congrArg (fun u => (splitWord u).op) h
    simp only [splitWord_op_encode_decodeWord] at hop
    rw [encodeUndoesDecode, encodeUndoesDecode, ← hop] at h
    by_cases hlt : (splitWord w).op.toNat < 2
    · rw [if_pos hlt, if_pos hlt] at h
      exact .inr ⟨hlt, (shiftRight_four_eq_iff w v).mpr h⟩
    · rw [if_neg hlt, if_neg hlt] at h
      exact .inl h
  · rintro (rfl | ⟨hlt, hshift⟩)
    · rfl
    · rw [encodeUndoesDecode, encodeUndoesDecode, ← splitWord_op_of_shiftRight_eq hshift, if_pos hlt, if_pos hlt]
      exact (shiftRight_four_eq_iff w v).mp hshift

/-- Settles O1: each word is a closed term that the decoder evaluates. -/
theorem wordsDecodeAsWritten : Obligations.WordsDecodeAsWritten := by
  unfold Obligations.WordsDecodeAsWritten
  decide

end Sys2Proof
end

section
/-! SUPPORT. What the cycle of any instruction leaves, said once for all of them (R130, R134 to R139), what a step can
do to the status, and the invariant that every step and every host move keeps. -/

namespace Sys2Proof.Machine

/-! ### The cycle of any instruction -/

/-- A cycle of `i` from `s` that completes in `u` (R134, R136, R138). -/
structure CompletesCycle (i : Instr) (s u : State) : Prop where
  answer : exec i s = .next u
  registers : ∀ r, r ≠ pcReg → u.reg r = (executed i s).reg r
  pc : u.pc = if i.dest = pcReg then (operation i (inputSample s)).getD (s.pc + 1) else s.pc + 1
  rom : u.rom = s.rom
  ramWritten : ∀ a, (executed i s).emitTarget = .ram a →
    u.ram = (ramWrite s a (lowByte ((executed i s).reg out0Reg))).ram
  ramKept : (∀ a, (executed i s).emitTarget ≠ .ram a) → u.ram = s.ram
  screen : ∀ j, screenRead u j =
    if (executed i s).emitTarget = .screen j then lowByte ((executed i s).reg out0Reg) else screenRead s j
  clock : u.clock = s.clock + 1
  status : u.status = s.status

/-- Emission writes the RAM where its target is a RAM byte, and only there. -/
theorem outputEmit_ram {pc : Word} {e u : State} (h : outputEmit pc e = .ok u) :
    (∀ a, e.emitTarget = .ram a → u.ram = (ramWrite e a (lowByte (e.reg out0Reg))).ram) ∧
      ((∀ a, e.emitTarget ≠ .ram a) → u.ram = e.ram) := by
  obtain ⟨-, h'⟩ | ⟨-, ⟨ht, h'⟩ | ⟨a, ht, h'⟩ | ⟨i, ht, h'⟩⟩ := outputEmit_cases pc e
  · exact nomatch h'.symm.trans h
  · obtain rfl := Except.ok.inj (h'.symm.trans h)
    simp [ht]
  · obtain rfl := Except.ok.inj (h'.symm.trans h)
    simp [ht]
  · obtain rfl := Except.ok.inj (h'.symm.trans h)
    simp [ht]

theorem completesCycle {i : Instr} {s : State} (hr : EmitsInRange (executed i s)) :
    CompletesCycle i s (runCycle i.dest (operation i) s) := by
  obtain ⟨ht, -⟩ | ⟨emitted, -, hemit, hrun⟩ := runCycle_cases i.dest (operation i) s
  · exact absurd ht hr
  · obtain ⟨u, hu, hreg, hrom, hclock, hstatus, -, -, hscreen⟩ := outputEmit_completes (pc := s.pc) hr
    obtain rfl : emitted = u := Except.ok.inj (hemit.symm.trans hu)
    obtain ⟨hwritten, hkept⟩ := outputEmit_ram hemit
    refine ⟨exec_eq_runCycle i s, fun r h => ?_, runCycle_pc hr, ?_, fun a ha => ?_, fun h => ?_, fun j => ?_, ?_, ?_⟩
    · simp [hrun, h, hreg]
    · simp [hrun, hrom, executed]
    · simp [hrun, hwritten a ha, executed, ramWrite]
    · simp [hrun, hkept h]
    · have hsame : screenRead (runCycle i.dest (operation i) s) j = screenRead emitted j := by simp [hrun, screenRead]
      have hexecuted : screenRead (executed i s) j = screenRead s j := by simp [executed, screenRead]
      rw [hsame, hscreen, hexecuted]
    · simp [hrun, hclock, executed]
    · simp [hrun, hstatus, executed]

theorem exec_outOfRange {i : Instr} {s : State} (h : (executed i s).emitTarget = .outOfRange) :
    exec i s = .next (takeFault (.screenWriteOutOfRange s.pc ((executed i s).reg out1Reg)) s) := by
  rw [exec_eq_runCycle]
  obtain ⟨-, hrun⟩ | ⟨-, hr, -⟩ := runCycle_cases i.dest (operation i) s
  · exact congrArg _ hrun
  · exact absurd h hr

/-- Every cycle is discarded with the fault or completes (R139). -/
theorem exec_cases (i : Instr) (s : State) :
    ((executed i s).emitTarget = .outOfRange ∧
      exec i s = .next (takeFault (.screenWriteOutOfRange s.pc ((executed i s).reg out1Reg)) s)) ∨
    ∃ u, EmitsInRange (executed i s) ∧ CompletesCycle i s u := by
  by_cases h : (executed i s).emitTarget = .outOfRange
  · exact .inl ⟨h, exec_outOfRange h⟩
  · exact .inr ⟨_, h, completesCycle h⟩

theorem CompletesCycle.eq_of_exec {i : Instr} {s u v : State} (h : CompletesCycle i s u) (hv : exec i s = .next v) :
    v = u :=
  Host.Outcome.next.inj (hv.symm.trans h.answer)

theorem CompletesCycle.wf {i : Instr} {s u : State} (h : CompletesCycle i s u) (hwf : s.wf = true) : u.wf = true := by
  rw [State.wf, Bool.and_eq_true] at hwf ⊢
  refine ⟨h.rom ▸ hwf.1, ?_⟩
  by_cases ht : ∃ a, (executed i s).emitTarget = .ram a
  · obtain ⟨a, ht⟩ := ht
    rw [h.ramWritten a ht]
    exact ramWrite_wf hwf.2 a _
  · rw [h.ramKept (not_exists.mp ht)]
    exact hwf.2

/-! ### The step, by the status -/

theorem step_of_takesCycle {s : State} (h : TakesCycle s) : step s = exec s.current s :=
  step_of_cycle h

theorem step_of_halt {s : State} (hs : s.status = .running) (hp : s.pc = haltPc) :
    step s = .next (endRun .halted s) := by
  simp only [step, (boundary_eq_halt s).mpr ⟨hs, hp⟩]

theorem step_of_not_running {s : State} (h : s.status ≠ .running) : step s = .next s := by
  simp only [step, (boundary_eq_wait s).mpr h]

/-- Everything a step of a running core can do: halt, take a fault, or complete a cycle. -/
theorem step_running_cases {s : State} (hs : s.status = .running) :
    (s.pc = haltPc ∧ step s = .next (endRun .halted s)) ∨
    (s.pc ≠ haltPc ∧ (executed s.current s).emitTarget = .outOfRange ∧
      step s = .next (takeFault (.screenWriteOutOfRange s.pc ((executed s.current s).reg out1Reg)) s)) ∨
    ∃ u, s.pc ≠ haltPc ∧ EmitsInRange (executed s.current s) ∧ step s = .next u ∧ CompletesCycle s.current s u := by
  by_cases hp : s.pc = haltPc
  · exact .inl ⟨hp, step_of_halt hs hp⟩
  · have hstep := step_of_takesCycle ((takesCycle_iff s).mpr ⟨hs, hp⟩)
    obtain ⟨ht, he⟩ | ⟨u, hr, hu⟩ := exec_cases s.current s
    · exact .inr (.inl ⟨hp, ht, hstep.trans he⟩)
    · exact .inr (.inr ⟨u, hp, hr, hstep.trans hu.answer, hu⟩)

/-- The status a running core has after a step. -/
theorem status_of_step_running {s u : State} (hs : s.status = .running) (h : step s = .next u) :
    u.status = .running ∨ u.status = .halted ∨ ∃ f, u.status = .faulted f := by
  obtain ⟨-, h'⟩ | ⟨-, -, h'⟩ | ⟨v, -, -, h', hv⟩ := step_running_cases hs <;>
    obtain rfl := Host.Outcome.next.inj (h'.symm.trans h)
  · exact .inr (.inl rfl)
  · exact .inr (.inr ⟨_, rfl⟩)
  · exact .inl (hv.status.trans hs)

theorem step_answers_next (s : State) : ∃ u, step s = .next u := by
  obtain ⟨-, h⟩ | ⟨-, h⟩ | ⟨-, h⟩ := step_cases s <;> exact ⟨_, h⟩

theorem session_step_of_not_running {m : Session} (h : m.core.status ≠ .running) : m.step = .next m := by
  have hgo : m.decision = .go := (decision_eq_go m).mpr fun hs => absurd hs h
  have hn : notificationAfter m.core m.host.notification = m.host.notification := by
    obtain ⟨hs, -⟩ | ⟨-, e⟩ := notificationAfter_cases m.core m.host.notification
    · exact absurd hs h
    · exact e
  simp only [Session.step, hgo, step_of_not_running h, hn]

theorem session_step_answers_next (m : Session) : ∃ n, m.step = .next n := by
  obtain ⟨-, h⟩ | ⟨reason, -, h⟩ | ⟨u, -, -, h⟩ := session_step_cases m <;> exact ⟨_, h⟩

/-- Settles O11: a step of the core or of a session ends in a next state in each of its cases, and a core that does not
run waits. -/
theorem stepAlwaysAnswersNext : Obligations.StepAlwaysAnswersNext := by
  constructor
  · intro s
    obtain ⟨u, hu⟩ := step_answers_next s
    exact ⟨u, hu, fun hs => Host.Outcome.next.inj (hu.symm.trans (step_of_not_running hs))⟩
  · intro m
    obtain ⟨n, hn⟩ := session_step_answers_next m
    exact ⟨n, hn, fun hs => Host.Outcome.next.inj (hn.symm.trans (session_step_of_not_running hs))⟩

/-! ### The invariant of the state -/

/-- The other clauses of the invariant say nothing of a running core. -/
theorem State.Inv.of_running {s : State} (hwf : s.wf = true) (hs : s.status = .running) : s.Inv := by
  refine ⟨hwf, ?_, fun pc x14 => ?_, ?_⟩ <;> simp [hs]

theorem State.Inv.of_stopped {s : State} {reason : StopReason} (hwf : s.wf = true) (hs : s.status = .stopped reason) :
    s.Inv := by
  refine ⟨hwf, ?_, fun pc x14 => ?_, ?_⟩ <;> simp [hs]

theorem State.Inv.halt {s : State} (hwf : s.wf = true) (hp : s.pc = haltPc) : (endRun .halted s).Inv := by
  refine ⟨hwf, fun _ => hp, fun pc x14 => ?_, ?_⟩ <;> simp

theorem State.Inv.fault {s : State} {x14 : Word} (hwf : s.wf = true) (hp : s.pc ≠ haltPc)
    (hx14 : 16 ≤ (x14 &&& screenWriteMask).toNat) : (takeFault (.screenWriteOutOfRange s.pc x14) s).Inv := by
  refine ⟨hwf, ?_, fun pc y h => ?_, ?_⟩
  · simp
  · obtain ⟨rfl, rfl⟩ : s.pc = pc ∧ x14 = y := by simpa using h
    exact ⟨rfl, hp, hx14⟩
  · simp

theorem State.Inv.bootState {rom : Sparse 16} (h : romWf rom = true) : (bootState rom).Inv := by
  refine ⟨?_, ?_, fun pc x14 => ?_, fun _ => rfl⟩
  · rw [State.wf, Bool.and_eq_true]
    exact ⟨h, rfl⟩
  · simp [Machine.bootState, State.reset]
  · simp [Machine.bootState, State.reset]

/-- Settles O8: a created core is one booted with a ROM of zeros. -/
theorem resetMeetsInvariant : Obligations.ResetMeetsInvariant :=
  State.Inv.bootState (rom := []) rfl

/-- Settles O9: a core that does not run stays as it is; a running one halts at 0xFFFF, faults at an emission out of
range, or completes a cycle, which keeps its memories canonical and leaves it running. -/
theorem stepKeepsInvariant : Obligations.StepKeepsInvariant := by
  intro s u hinv hstep
  by_cases hs : s.status = .running
  · obtain ⟨hp, h⟩ | ⟨hp, ht, h⟩ | ⟨v, -, -, h, hv⟩ := step_running_cases hs <;>
      obtain rfl := Host.Outcome.next.inj (h.symm.trans hstep)
    · exact .halt hinv.memory hp
    · obtain ⟨-, -, hx14⟩ := (emitTarget_eq_outOfRange _ _).mp ht
      exact .fault hinv.memory hp hx14
    · exact .of_running (hv.wf hinv.memory) (hv.status.trans hs)
  · obtain rfl := Host.Outcome.next.inj ((step_of_not_running hs).symm.trans hstep)
    exact hinv

/-! ### The invariant of a session -/

/-- The clauses of the host's side say nothing of a running core. -/
theorem Session.Inv.of_running {m : Session} (hwf : m.core.wf = true) (hs : m.core.status = .running) : m.Inv := by
  refine ⟨.of_running hwf hs, ?_, ?_, fun e => ?_, fun e _ => .inl hs⟩ <;> simp [hs]

/-- A halted or faulted core leaves one clause of the host's side: no notification has reported an error. -/
theorem Session.Inv.of_halted_or_faulted {m : Session} (hcore : m.core.Inv)
    (hs : m.core.status = .halted ∨ ∃ f, m.core.status = .faulted f)
    (hn : m.host.notification = .quiet ∨ m.host.notification = .issued) : m.Inv := by
  refine ⟨hcore, ?_, ?_, fun e => ?_, fun e => ?_⟩
  · obtain h | ⟨f, h⟩ := hs <;> simp [h]
  · obtain h | ⟨f, h⟩ := hs <;> simp [h]
  · obtain h | ⟨f, h⟩ := hs <;> simp [h]
  · obtain h | h := hn <;> simp [h]

/-- The end that the host's side decides on agrees with what it asked for (R204, R213, R214). -/
theorem Session.Inv.stop {m : Session} {reason : StopReason} (hwf : m.core.wf = true)
    (h : m.decision = .stop reason) : Session.Inv { m with core := endRun (.stopped reason) m.core } := by
  obtain ⟨-, ⟨e, hn, rfl⟩ | ⟨hn, hstop, hp, rfl⟩⟩ := (decision_eq_stop m reason).mp h
  · refine ⟨.of_stopped hwf rfl, ?_, ?_, fun e' h' => ?_, fun e' h' => .inr ?_⟩
    · simp
    · simp
    · obtain rfl : e = e' := by simpa using h'
      exact hn
    · obtain rfl : e = e' := Notification.failed.inj (hn.symm.trans h')
      rfl
  · refine ⟨.of_stopped hwf rfl, ?_, fun _ => ⟨hstop, hp⟩, fun e => ?_, fun e h' => ?_⟩
    · simp
    · simp
    · obtain hn | hn := hn <;> exact nomatch hn.symm.trans h'

theorem session_step_keeps_inv {m n : Session} (hinv : m.Inv) (hstep : m.step = .next n) : n.Inv := by
  by_cases hs : m.core.status = .running
  · obtain ⟨-, h⟩ | ⟨reason, hd, h⟩ | ⟨u, hd, hu, h⟩ := session_step_cases m <;>
      obtain rfl := Host.Outcome.next.inj (h.symm.trans hstep)
    · exact hinv
    · exact .stop hinv.core.memory hd
    · have hcore := stepKeepsInvariant _ _ hinv.core hu
      obtain hrun | hend := status_of_step_running hs hu
      · exact .of_running hcore.memory hrun
      · refine .of_halted_or_faulted hcore hend ?_
        obtain ⟨-, e⟩ | ⟨-, e⟩ := notificationAfter_cases u m.host.notification
        · exact .inr e
        · dsimp only
          rw [e]
          exact ((decision_eq_go m).mp hd hs).1
  · obtain rfl := Host.Outcome.next.inj ((session_step_of_not_running hs).symm.trans hstep)
    exact hinv

theorem hostMove_keeps_inv {m : Session} (hinv : m.Inv) (move : HostMove) : (hostMove move m).Inv := by
  obtain e | ⟨-, -, e⟩ | ⟨-, hs, e⟩ | ⟨n, hs, -, -, e⟩ := hostMove_cases move m <;> rw [e]
  · exact hinv
  · exact .of_running hinv.core.memory rfl
  · exact .of_running hinv.core.memory hs
  · exact .of_running hinv.core.memory hs

/-- Settles O52: from a running core a step of a session ends as the host's decision or the core's step says; every move
that does something leaves a running core. -/
theorem sessionStepAndHostMovesKeepInvariant : Obligations.SessionStepAndHostMovesKeepInvariant :=
  fun _ hinv => ⟨fun _ => session_step_keeps_inv hinv, hostMove_keeps_inv hinv⟩

/-! ### The sessions of a run -/

theorem address_lt_of_recordWord {r : Record} {w : Word} (h : recordWord r = .ok w) : r.address.toNat < romWords := by
  unfold recordWord at h
  split at h
  · by_contra hlt
    rw [if_neg hlt] at h
    exact nomatch h
  · exact nomatch h

/-- A load keeps the ROM canonical: a word is stored only at an address below 65 535 (R235). -/
theorem romWf_of_loadFrom {n : Nat} {rom loaded : Sparse 16} {stream : List (Except StreamError Record)}
    (hrom : romWf rom = true) (h : loadFrom n rom stream = .ok loaded) : romWf loaded = true := by
  fun_induction loadFrom n rom stream with
  | case1 => exact nomatch h
  | case2 => exact nomatch h
  | case3 n rom r rest htype w hword ih => exact ih (romWf_sparseWrite hrom (address_lt_of_recordWord hword) w) h
  | case4 => exact nomatch h
  | case5 => exact Except.ok.inj h ▸ hrom
  | case6 n rom r rest code htype ih => exact ih hrom h

/-- A boot that succeeds gives the created core with a canonical ROM (R242). -/
theorem eq_bootState_of_boot {stream : List (Except StreamError Record)} {s : State} (h : boot stream = .ok s) :
    ∃ rom, romWf rom = true ∧ s = bootState rom := by
  unfold boot at h
  cases hload : loadRom stream with
  | ok rom =>
    rw [hload] at h
    exact ⟨rom, romWf_of_loadFrom rfl hload, (Except.ok.inj h).symm⟩
  | error e =>
    rw [hload] at h
    exact nomatch h

/-- Beside a host that has asked for nothing, a booted core gives a session with the invariant. -/
theorem Session.Inv.boot {rom : Sparse 16} (h : romWf rom = true) : Session.Inv ⟨bootState rom, .idle⟩ := by
  refine ⟨.bootState h, fun _ => rfl, fun hs => ?_, fun e hs => ?_, fun e hs => ?_⟩ <;> exact nomatch hs

/-- Settles O10: the session just booted has the invariant, and every step and every host move keeps it. -/
theorem reachableStatesMeetInvariant : Obligations.ReachableStatesMeetInvariant := by
  intro m hm
  induction hm with
  | boot stream s hboot =>
    obtain ⟨rom, hrom, rfl⟩ := eq_bootState_of_boot hboot
    exact .boot hrom
  | step m n _ hstep ih => exact session_step_keeps_inv ih hstep
  | host m move _ ih => exact hostMove_keeps_inv ih move

/-! ### What a step and a host move leave unchanged -/

theorem step_rom {s u : State} (h : step s = .next u) : u.rom = s.rom := by
  by_cases hs : s.status = .running
  · obtain ⟨-, h'⟩ | ⟨-, -, h'⟩ | ⟨v, -, -, h', hv⟩ := step_running_cases hs <;>
      obtain rfl := Host.Outcome.next.inj (h'.symm.trans h)
    · rfl
    · rfl
    · exact hv.rom
  · obtain rfl := Host.Outcome.next.inj ((step_of_not_running hs).symm.trans h)
    rfl

/-- Settles O20: a cycle keeps the ROM, and neither the end of a run nor a host move writes more than the status. -/
theorem romIsNeverWritten : Obligations.RomIsNeverWritten := by
  refine ⟨fun s u => step_rom, fun m => ⟨fun n hn => ?_, fun move => ?_⟩⟩
  · obtain ⟨-, h⟩ | ⟨reason, -, h⟩ | ⟨u, -, hu, h⟩ := session_step_cases m <;>
      obtain rfl := Host.Outcome.next.inj (h.symm.trans hn)
    · rfl
    · rfl
    · exact step_rom hu
  · obtain ⟨status, e⟩ := hostMove_core move m
    rw [e]

/-- Only a start writes anything of the core (R216). -/
theorem hostMove_core_of_ne_start {move : HostMove} (hmove : move ≠ .start) (m : Session) :
    (hostMove move m).core = m.core := by
  obtain e | ⟨h, -, -⟩ | ⟨-, -, e⟩ | ⟨n, -, -, -, e⟩ := hostMove_cases move m
  · rw [e]
  · exact absurd h hmove
  · rw [e]
  · rw [e, withNotification_core]

theorem startCore_status (s : State) : (startCore s).status = if s.status = .ready then .running else s.status := by
  obtain ⟨h, e⟩ | ⟨h, e⟩ := startCore_cases s
  · rw [e, if_pos h]
  · rw [e, if_neg h]

theorem hostMove_core_status (move : HostMove) (m : Session) : (hostMove move m).core.status =
    if move = .start ∧ m.core.status = .ready then .running else m.core.status := by
  by_cases hmove : move = .start
  · subst hmove
    simpa [hostMove] using startCore_status m.core
  · rw [hostMove_core_of_ne_start hmove, if_neg fun h => hmove h.1]

/-- Settles O21: a host move writes the status at most, and that only as a start of a ready core. -/
theorem hostNeverWritesCoreState : Obligations.HostNeverWritesCoreState := by
  intro move m
  have hstatus := hostMove_core_status move m
  obtain ⟨status, e⟩ := hostMove_core move m
  rw [e] at hstatus ⊢
  exact ⟨rfl, rfl, rfl, rfl, rfl, hstatus⟩

/-! ### The status -/

theorem hostMove_of_isEnd {m : Session} (h : m.core.status.isEnd = true) (move : HostMove) : hostMove move m = m := by
  obtain e | ⟨-, hs, -⟩ | ⟨-, hs, -⟩ | ⟨n, hs, -, -, -⟩ := hostMove_cases move m
  · exact e
  · exact nomatch hs ▸ h
  · exact nomatch hs ▸ h
  · exact nomatch hs ▸ h

theorem isEnd_iff (status : Status) : status.isEnd = true ↔
    status = .halted ∨ (∃ f, status = .faulted f) ∨ ∃ reason, status = .stopped reason := by
  cases status <;> simp [Status.isEnd]

theorem not_running_of_isEnd {status : Status} (h : status.isEnd = true) : status ≠ .running := by
  rintro rfl
  exact nomatch h

/-- Settles O29: a core in an end state does not run, and no host move finds anything to do. -/
theorem endStatesAreFinal : Obligations.EndStatesAreFinal := by
  intro m hend
  have hend' := (isEnd_iff _).mpr hend
  exact ⟨step_of_not_running (not_running_of_isEnd hend'), session_step_of_not_running (not_running_of_isEnd hend'),
    hostMove_of_isEnd hend'⟩

theorem status_change_of_step {s u : State} (h : step s = .next u) (hne : u.status ≠ s.status) :
    s.status = .running ∧ ((s.pc = haltPc ∧ u = endRun .halted s) ∨
      (s.pc ≠ haltPc ∧ (executed s.current s).emitTarget = .outOfRange ∧
        u = takeFault (.screenWriteOutOfRange s.pc ((executed s.current s).reg out1Reg)) s)) := by
  by_cases hs : s.status = .running
  · obtain ⟨hp, h'⟩ | ⟨hp, ht, h'⟩ | ⟨v, -, -, h', hv⟩ := step_running_cases hs <;>
      obtain rfl := Host.Outcome.next.inj (h'.symm.trans h)
    · exact ⟨hs, .inl ⟨hp, rfl⟩⟩
    · exact ⟨hs, .inr ⟨hp, ht, rfl⟩⟩
    · exact absurd hv.status hne
  · obtain rfl := Host.Outcome.next.inj ((step_of_not_running hs).symm.trans h)
    exact absurd rfl hne

/-- Settles O30: only a halt and a fault change the status in a step of the core, only the host's decision does beside
them in a step of a session, and only a start does in a host move. -/
theorem statusChangesOnlyByNamedEvents : Obligations.StatusChangesOnlyByNamedEvents := by
  refine ⟨fun s u => status_change_of_step, fun m n hn hne => ?_, fun move m hne => ?_⟩
  · have hs : m.core.status = .running := by
      by_contra hs
      obtain rfl := Host.Outcome.next.inj ((session_step_of_not_running hs).symm.trans hn)
      exact hne rfl
    refine ⟨hs, ?_⟩
    obtain ⟨-, h⟩ | ⟨reason, hd, h⟩ | ⟨u, -, hu, h⟩ := session_step_cases m <;>
      obtain rfl := Host.Outcome.next.inj (h.symm.trans hn)
    · exact absurd rfl hne
    · obtain ⟨-, ⟨e, he, rfl⟩ | ⟨-, hstop, hp, rfl⟩⟩ := (decision_eq_stop m reason).mp hd
      · exact .inl ⟨e, he, rfl⟩
      · exact .inr (.inl ⟨hp, hstop, rfl⟩)
    · exact .inr (.inr hu)
  · have hstatus := hostMove_core_status move m
    by_cases h : move = .start ∧ m.core.status = .ready
    · exact ⟨h.1, h.2, hstatus.trans (if_pos h)⟩
    · exact absurd (hstatus.trans (if_neg h)) hne

end Sys2Proof.Machine
end

section
/-! SUPPORT. The disassembled text splits into its tokens, the tokens assemble to the word (R100, R108, R113), and the
lines of a file assemble in order up to the first error (R111). -/

namespace Sys2Proof.Machine

/-! ### Splitting a text into its tokens -/

/-- A token that splitting and lowercasing leave whole: it is not empty, and has no white space and no capital letter.
-/
def isPlainToken (token : List Char) : Bool :=
  !token.isEmpty && token.all fun c => !isAsciiSpace c && decide (lowerChar c = c)

theorem isPlainToken_iff (token : List Char) :
    isPlainToken token = true ↔ token ≠ [] ∧ ∀ c ∈ token, isAsciiSpace c = false ∧ lowerChar c = c := by
  simp [isPlainToken]

theorem splitTokensFrom_append {token : List Char} (h : ∀ c ∈ token, isAsciiSpace c = false) (soFar rest : List Char) :
    splitTokensFrom soFar (token ++ rest) = splitTokensFrom (token.reverse ++ soFar) rest := by
  induction token generalizing soFar with
  | nil => rfl
  | cons c cs ih =>
    obtain ⟨hc, hcs⟩ := List.forall_mem_cons.mp h
    simp [splitTokensFrom, hc, ih hcs]

/-- Tokens with a space before each split at the spaces. -/
theorem splitTokensFrom_spaced {soFar : List Char} {tokens : List (List Char)} (hsoFar : soFar ≠ [])
    (h : ∀ token ∈ tokens, isPlainToken token = true) :
    splitTokensFrom soFar (tokens.flatMap fun t => ' ' :: t) = soFar.reverse :: tokens := by
  induction tokens generalizing soFar with
  | nil => simp [splitTokensFrom, hsoFar]
  | cons token rest ih =>
    obtain ⟨htoken, hrest⟩ := List.forall_mem_cons.mp h
    obtain ⟨hne, hchars⟩ := (isPlainToken_iff token).mp htoken
    have hspace : isAsciiSpace ' ' = true := by decide
    have htail := ih (soFar := token.reverse) (by simpa using hne) hrest
    simp [splitTokensFrom, hspace, hsoFar, splitTokensFrom_append fun c hc => (hchars c hc).1, htail]

theorem map_lowerChar_of_isPlainToken {token : List Char} (h : isPlainToken token = true) :
    token.map lowerChar = token :=
  have hchars := ((isPlainToken_iff token).mp h).2
  (List.map_congr_left fun c hc => (hchars c hc).2).trans (List.map_id' token)

theorem map_lowerChar_spaced {tokens : List (List Char)} (h : ∀ token ∈ tokens, isPlainToken token = true) :
    (tokens.flatMap fun t => ' ' :: t).map lowerChar = tokens.flatMap fun t => ' ' :: t := by
  induction tokens with
  | nil => rfl
  | cons token rest ih =>
    obtain ⟨htoken, hrest⟩ := List.forall_mem_cons.mp h
    have hspace : lowerChar ' ' = ' ' := by decide
    simp [hspace, map_lowerChar_of_isPlainToken htoken, ih hrest]

theorem tokensOfLine_spaced {token : List Char} {rest : List (List Char)}
    (h : ∀ t ∈ token :: rest, isPlainToken t = true) :
    tokensOfLine (token ++ rest.flatMap fun t => ' ' :: t) = token :: rest := by
  obtain ⟨htoken, hrest⟩ := List.forall_mem_cons.mp h
  obtain ⟨hne, hchars⟩ := (isPlainToken_iff token).mp htoken
  rw [tokensOfLine, List.map_append, map_lowerChar_of_isPlainToken htoken, map_lowerChar_spaced hrest,
    splitTokensFrom_append fun c hc => (hchars c hc).1, List.append_nil,
    splitTokensFrom_spaced (by simpa using hne) hrest, List.reverse_reverse]

/-! ### The tokens of a word -/

theorem isPlainToken_opName (op : Op) : isPlainToken (opName op).toList = true := by
  cases op <;> decide

theorem isPlainToken_operandText (kind : OperandKind) (n : Nibble) : isPlainToken (operandText kind n) = true := by
  cases kind with
  | reg =>
    revert n
    decide
  | literal =>
    revert n
    decide

theorem operandTexts_eq_zipWith (kinds : List OperandKind) (fields : List Nibble) :
    operandTexts kinds fields = List.zipWith operandText kinds fields := by
  induction kinds generalizing fields with
  | nil => rfl
  | cons kind kinds ih =>
    cases fields with
    | nil => rfl
    | cons n fields => exact congrArg _ (ih fields)

theorem isPlainToken_operandTexts (kinds : List OperandKind) (fields : List Nibble) :
    ∀ token ∈ operandTexts kinds fields, isPlainToken token = true := by
  fun_induction operandTexts kinds fields with
  | case1 kind kinds n fields ih => exact List.forall_mem_cons.mpr ⟨isPlainToken_operandText kind n, ih⟩
  | case2 => simp

/-- A disassembled line splits into the tokens it is made of. -/
theorem tokensOfLine_disassemble (w : Word) : tokensOfLine (disassemble w) = disassembleTokens w :=
  tokensOfLine_spaced (List.forall_mem_cons.mpr ⟨isPlainToken_opName _, isPlainToken_operandTexts _ _⟩)

/-! ### Reading the tokens back -/

theorem lookupToken_opName (op : Op) : lookupToken mnemonicTable (opName op).toList = some op := by
  cases op <;> decide

theorem head_opName_ne_hash (op : Op) : (opName op).toList.head? ≠ some '#' := by
  cases op <;> decide

theorem operandField_operandText (kind : OperandKind) (n : Nibble) :
    operandField kind (operandText kind n) = .ok n := by
  cases kind with
  | reg =>
    revert n
    decide
  | literal =>
    revert n
    decide

/-- The texts of operands read back as their fields, as many as the operation has. -/
theorem operandFields_operandTexts (line : Nat) (kinds : List OperandKind) (fields : List Nibble) :
    operandFields line kinds (operandTexts kinds fields) = .ok (fields.take kinds.length) := by
  induction kinds generalizing fields with
  | nil => rfl
  | cons kind kinds ih =>
    cases fields with
    | nil => rfl
    | cons n fields => simp [operandTexts, operandFields, operandField_operandText, ih]

/-- Two operands for `mov` and `not`, three for the others (R103). -/
theorem length_operandKinds (n : Nibble) : (operandKinds (opOfNibble n)).length = if n.toNat < 2 then 2 else 3 := by
  revert n
  decide

/-- The word of all the fields its operation reads is the word with the ignored field cleared. -/
theorem wordOfOperands_take (f : Fields) :
    wordOfOperands (opOfNibble f.op) ([f.dest, f.a, f.b].take (operandKinds (opOfNibble f.op)).length) =
      joinWord (clearIgnored f) := by
  rw [wordOfOperands, opCode_opOfNibble, length_operandKinds, clearIgnored]
  by_cases h : f.op.toNat < 2
  · rw [if_pos h, if_pos h]
    rfl
  · rw [if_neg h, if_neg h]
    rfl

/-- Every disassembled word assembles to the word with the ignored field cleared. -/
theorem assembleLine_disassemble (line : Nat) (w : Word) :
    assembleLine line (disassemble w) = .ok (some (joinWord (clearIgnored (splitWord w)))) := by
  have hcount : (operandTexts (operandKinds (opOfNibble (splitWord w).op))
      [(splitWord w).dest, (splitWord w).a, (splitWord w).b]).length =
      (operandKinds (opOfNibble (splitWord w).op)).length := by
    rw [operandTexts_eq_zipWith, List.length_zipWith, length_operandKinds]
    split <;> rfl
  rw [assembleLine, tokensOfLine_disassemble, disassembleTokens, assembleTokens_ok (head_opName_ne_hash _)
    (lookupToken_opName _) hcount (operandFields_operandTexts line _ _), wordOfOperands_take]

theorem clearIgnored_eq_self {f : Fields} (h : 2 ≤ f.op.toNat ∨ f.b = 0) : clearIgnored f = f := by
  rw [clearIgnored]
  split
  · obtain ⟨op, d, a, b⟩ := f
    obtain h | rfl := h
    · omega
    · rfl
  · rfl

theorem operandKinds_of_lt_two {n : Nibble} (h : n.toNat < 2) : operandKinds (opOfNibble n) = [.reg, .reg] := by
  revert n
  decide

/-- The text of `mov` and `not` shows no ignored field. -/
theorem disassemble_and_FFF0 {w : Word} (h : (splitWord w).op.toNat < 2) :
    disassemble (w &&& 0xFFF0) = disassemble w := by
  have htokens : disassembleTokens (w &&& 0xFFF0) = disassembleTokens w := by
    rw [disassembleTokens, disassembleTokens, splitWord_and_FFF0, operandKinds_of_lt_two h]
    rfl
  rw [disassemble, disassemble, htokens]

/-- Settles O48: the text assembles to the word with the ignored field cleared, which is the word itself where the
field is not ignored or already 0. -/
theorem disassembledWordAssemblesBack : Obligations.DisassembledWordAssemblesBack := by
  intro line w
  refine ⟨fun h => ?_, fun h => (disassemble_and_FFF0 h).symm⟩
  rw [assembleLine_disassemble, clearIgnored_eq_self h, joinWord_splitWord]

/-- Settles O50: with the right count only the operands are left to fail. -/
theorem operandCountMustMatch : Obligations.OperandCountMustMatch := by
  intro n name op operands hlookup hname
  refine ⟨assembleTokens_wrongCount hname hlookup, fun hcount e he => ?_⟩
  cases hfields : operandFields n (operandKinds op) operands with
  | ok fields => exact nomatch (assembleTokens_ok hname hlookup hcount hfields).symm.trans he
  | error e' =>
    obtain rfl : e' = e := Except.error.inj ((assembleTokens_operandError hname hlookup hcount hfields).symm.trans he)
    exact operandFields_error hfields

/-! ### The lines of a file -/

/-- The operands of a line have fields that no line number changes, or an error at that line. -/
theorem operandFields_line_cases (line : Nat) (kinds : List OperandKind) (tokens : List (List Char)) :
    (∃ fields, ∀ n, operandFields n kinds tokens = .ok fields) ∨
      ∃ e, operandFields line kinds tokens = .error e ∧ e.line = line := by
  induction kinds generalizing tokens with
  | nil => exact .inl ⟨[], fun _ => rfl⟩
  | cons kind kinds ih =>
    cases tokens with
    | nil => exact .inl ⟨[], fun _ => rfl⟩
    | cons token tokens =>
      cases hfield : operandField kind token with
      | error e => exact .inr ⟨⟨e, line, token⟩, by simp [operandFields, hfield], rfl⟩
      | ok field =>
        obtain ⟨fields, hok⟩ | ⟨e, he, hline⟩ := ih tokens
        · exact .inl ⟨field :: fields, fun n => by simp [operandFields, hfield, hok]⟩
        · exact .inr ⟨e, by simp [operandFields, hfield, he], hline⟩

/-- A line has a meaning that no line number changes, or an error with its own number (R111). -/
theorem assembleTokens_line_cases (line : Nat) (tokens : List (List Char)) :
    (∃ word, ∀ n, assembleTokens n tokens = .ok word) ∨
      ∃ e, assembleTokens line tokens = .error e ∧ e.line = line := by
  cases tokens with
  | nil => exact .inl ⟨none, fun _ => rfl⟩
  | cons name operands =>
    by_cases hname : name.head? = some '#'
    · exact .inl ⟨none, fun _ => assembleTokens_comment hname⟩
    · cases hlookup : lookupToken mnemonicTable name with
      | none => exact .inr ⟨_, assembleTokens_unknown hname hlookup, rfl⟩
      | some op =>
        by_cases hcount : operands.length = (operandKinds op).length
        · obtain ⟨fields, hok⟩ | ⟨e, he, hline⟩ := operandFields_line_cases line (operandKinds op) operands
          · exact .inl ⟨_, fun n => assembleTokens_ok hname hlookup hcount (hok n)⟩
          · exact .inr ⟨e, assembleTokens_operandError hname hlookup hcount he, hline⟩
        · exact .inr ⟨_, assembleTokens_wrongCount hname hlookup hcount, rfl⟩

theorem assembleLine_ok_at_line {line : Nat} {text : List Char} {word : Option Word}
    (h : assembleLine line text = .ok word) (n : Nat) : assembleLine n text = .ok word := by
  obtain ⟨word', hok⟩ | ⟨e, he, -⟩ := assembleTokens_line_cases line (tokensOfLine text)
  · exact (hok n).trans ((hok line).symm.trans h)
  · exact nomatch he.symm.trans h

theorem assembleLine_error_line {line : Nat} {text : List Char} {e : AsmError}
    (h : assembleLine line text = .error e) : e.line = line := by
  obtain ⟨word, hok⟩ | ⟨e', he, hline⟩ := assembleTokens_line_cases line (tokensOfLine text)
  · exact nomatch (hok line).symm.trans h
  · exact Except.error.inj (he.symm.trans h) ▸ hline

/-- Good lines put their words before what the lines after them give, and their number to the line numbers. -/
theorem assembleLines_append {good : List (List Char)} {words : List (Option Word)}
    (h : good.map (assembleLine 1) = words.map Except.ok) (n : Nat) (rest : List SourceLine) :
    assembleLines n (good.map .text ++ rest) =
      (assembleLines (n + good.length) rest).map (words.filterMap id ++ ·) := by
  induction good generalizing words n with
  | nil =>
    obtain rfl : words = [] := by simpa using h.symm
    cases hrest : assembleLines n rest <;> simp [hrest, Except.map]
  | cons text good ih =>
    cases words with
    | nil => simp at h
    | cons word words =>
      obtain ⟨htext, hgood⟩ := List.cons.inj h
      have hlen : n + 1 + good.length = n + (text :: good).length := by simp only [List.length_cons]; omega
      rw [List.map_cons, List.cons_append, assembleLines, assembleLine_ok_at_line htext n, ih hgood, hlen]
      cases assembleLines (n + (text :: good).length) rest with
      | error e => rfl
      | ok ws => cases word <;> rfl

theorem assembleCommand_append {good : List (List Char)} {words : List (Option Word)}
    (h : good.map (assembleLine 1) = words.map Except.ok) {rest : List SourceLine} {e : AsmError}
    (hrest : assembleLines (good.length + 1) rest = .error e) (written : Bool) :
    assembleCommand (good.map .text ++ rest) written = .error e := by
  rw [assembleCommand, assembleLines_append h, Nat.add_comm, hrest]
  rfl

theorem assembleLines_good {good : List (List Char)} {words : List (Option Word)}
    (h : good.map (assembleLine 1) = words.map Except.ok) :
    assembleLines 1 (good.map .text) = .ok (words.filterMap id) := by
  have happend := assembleLines_append h 1 []
  rw [List.append_nil] at happend
  rw [happend]
  exact congrArg Except.ok (List.append_nil _)

theorem assembleExit_eq_zero_iff (r : Except AsmError (List Char)) : assembleExit r = .zero ↔ ∃ text, r = .ok text := by
  cases r <;> simp [assembleExit]

/-- Settles O51: the good lines only add words and line numbers, so the first bad line, or the writing of the image,
decides. -/
theorem assembleStopsAtFirstError : Obligations.AssembleStopsAtFirstError := by
  intro good words bad e rest written hgood hbad
  refine ⟨assembleCommand_append hgood ?_ written, assembleLine_error_line hbad,
    assembleCommand_append hgood rfl written, ?_, ?_, assembleExit_eq_zero_iff⟩
  · simp only [assembleLines, hbad]
  · rw [assembleCommand, assembleLines_good hgood, List.length_map]
    rfl
  · rw [assembleCommand, assembleLines_good hgood]
    rfl

end Sys2Proof.Machine
end

section
/-! SUPPORT. The side-channel by the bits of register 13 (R24 to R29, R60 to R63), and what a completed cycle leaves
in the registers and memories (R133, R134). -/

namespace Sys2Proof.Machine

/-! ### Sampling -/

theorem inputSample_of_some {s : State} {byte : Byte} (h : sampledByte s = some byte) :
    inputSample s = s.setReg inReg (withLowByte (s.reg inReg) byte) := by
  simp only [inputSample, h]

theorem inputSample_of_bit15 {s : State} (h : bit15 (s.reg out0Reg) = true) : inputSample s = s := by
  simp only [inputSample, sampledByte, if_pos h]

theorem sampledByte_of_ram {s : State} (h15 : bit15 (s.reg out0Reg) = false) (h14 : bit14 (s.reg out0Reg) = false) :
    sampledByte s = some (ramRead s (s.reg out1Reg)) := by
  simp [sampledByte, h15, h14]

theorem sampledByte_of_screen {s : State} (h15 : bit15 (s.reg out0Reg) = false) (h14 : bit14 (s.reg out0Reg) = true) :
    sampledByte s = some (screenRead s (sampleIndex (s.reg out1Reg))) := by
  simp [sampledByte, h15, h14]

/-- The mask already keeps the index below 16. -/
theorem sampleIndex_val (x14 : Word) : (sampleIndex x14).val = (x14 &&& screenReadMask).toNat := by
  have hlt : (x14 &&& screenReadMask).toNat < 16 :=
    Nat.lt_of_le_of_lt (BitVec.toNat_and x14 screenReadMask ▸ Nat.and_le_right) (by decide)
  exact Nat.mod_eq_of_lt hlt

/-- Settles O12: bits 15 and 14 of register 13 choose the byte, and sampling changes no register but 6. -/
theorem inputSamplingFillsRegisterSix : Obligations.InputSamplingFillsRegisterSix := by
  intro s
  refine ⟨inputSample_of_bit15, fun h15 h14 => ?_, fun h15 h14 => ⟨sampleIndex (s.reg out1Reg), sampleIndex_val _, ?_⟩,
    fun r hr => inputSample_reg_of_ne s hr, inputSample_rom s, inputSample_ram s, inputSample_screen s,
    inputSample_clock s, inputSample_status s⟩
  · rw [inputSample_of_some (sampledByte_of_ram h15 h14), reg_setReg]
    exact if_pos rfl
  · rw [inputSample_of_some (sampledByte_of_screen h15 h14), reg_setReg]
    exact if_pos rfl

/-! ### Emission -/

section
variable {s : State}

theorem emitTarget_of_off (h15 : bit15 (s.reg out0Reg) = false) : s.emitTarget = .off := by
  simp [State.emitTarget, emitTarget, h15]

theorem emitTarget_of_ram (h15 : bit15 (s.reg out0Reg) = true) (h14 : bit14 (s.reg out0Reg) = false) :
    s.emitTarget = .ram (s.reg out1Reg) := by
  simp [State.emitTarget, emitTarget, h15, h14]

theorem emitTarget_of_screen (h15 : bit15 (s.reg out0Reg) = true) (h14 : bit14 (s.reg out0Reg) = true)
    (hlt : (s.reg out1Reg &&& screenWriteMask).toNat < 16) : s.emitTarget = .screen ⟨_, hlt⟩ := by
  rw [State.emitTarget, emitTarget, if_pos h15, if_pos h14, dif_pos hlt]

theorem state_emitTarget_eq_outOfRange : s.emitTarget = .outOfRange ↔ bit15 (s.reg out0Reg) = true ∧
    bit14 (s.reg out0Reg) = true ∧ 16 ≤ (s.reg out1Reg &&& screenWriteMask).toNat :=
  emitTarget_eq_outOfRange _ _

end

/-- Settles O13: bits 15 and 14 of register 13 and the masked index choose the location, where a write reads back. -/
theorem outputEmissionWritesOneByte : Obligations.OutputEmissionWritesOneByte := by
  intro pc s hwf
  refine ⟨fun h15 => ?_, fun h15 h14 => ?_, fun h15 h14 hlt => ?_, fun h15 h14 hge => ?_⟩
  · rw [outputEmit, emitTarget_of_off h15]
  · rw [outputEmit, emitTarget_of_ram h15 h14]
    exact ⟨_, rfl, rfl, fun a => ramRead_ramWrite hwf _ a _⟩
  · rw [outputEmit, emitTarget_of_screen h15 h14 hlt]
    exact ⟨_, rfl, rfl, fun i => (screenRead_screenWrite s _ i _).trans (if_congr Fin.ext_iff rfl rfl)⟩
  · rw [outputEmit, state_emitTarget_eq_outOfRange.mpr ⟨h15, h14, hge⟩]
    rfl

/-! ### The unused bits of register 13 -/

theorem setReg_comm {r q : RegIdx} (h : r ≠ q) (s : State) (v w : Word) :
    (s.setReg r v).setReg q w = (s.setReg q w).setReg r v := by
  refine state_ext_reg (fun p => ?_) rfl rfl rfl rfl rfl
  by_cases hq : p = q
  · subst hq
    simp [h.symm]
  · simp [hq]

section
variable {s : State} {v : Word} (h : v &&& 0xC0FF = s.reg out0Reg &&& 0xC0FF)
include h

theorem getLsbD_eq_of_used {k : Nat} (hk : (0xC0FF : Word).getLsbD k = true) :
    v.getLsbD k = (s.reg out0Reg).getLsbD k := by
  simpa only [BitVec.getLsbD_and, hk, Bool.and_true] using congrArg (BitVec.getLsbD · k) h

theorem bit15_eq_of_used : bit15 v = bit15 (s.reg out0Reg) := getLsbD_eq_of_used h rfl

theorem bit14_eq_of_used : bit14 v = bit14 (s.reg out0Reg) := getLsbD_eq_of_used h rfl

theorem lowByte_eq_of_used : lowByte v = lowByte (s.reg out0Reg) := by
  have hlow : ∀ u : Word, lowByte (u &&& 0xC0FF) = lowByte u := fun u => by
    rw [lowByte, BitVec.extractLsb'_and]
    exact BitVec.and_allOnes
  rw [← hlow v, h, hlow]

theorem sampledByte_setReg_of_used : sampledByte (s.setReg out0Reg v) = sampledByte s := by
  have h14 : out1Reg ≠ out0Reg := by decide
  simp only [sampledByte, reg_setReg, if_pos, if_neg h14, bit15_eq_of_used h, bit14_eq_of_used h]
  rfl

theorem inputSample_setReg_of_used : inputSample (s.setReg out0Reg v) = (inputSample s).setReg out0Reg v := by
  have hsame := sampledByte_setReg_of_used h
  obtain ⟨hnone, e⟩ | ⟨byte, hsome, e⟩ := inputSample_cases s
  · rw [e, inputSample, hsame, hnone]
  · have hreg : (s.setReg out0Reg v).reg inReg = s.reg inReg := (reg_setReg _ _ _ _).trans (if_neg (by decide))
    rw [e, inputSample_of_some (hsame.trans hsome), hreg, setReg_comm (by decide)]

theorem emitTarget_setReg_of_used : (s.setReg out0Reg v).emitTarget = s.emitTarget := by
  have h14 : out1Reg ≠ out0Reg := by decide
  simp only [State.emitTarget, emitTarget, reg_setReg, if_pos, if_neg h14, bit15_eq_of_used h, bit14_eq_of_used h]

theorem outputEmit_setReg_of_used (pc : Word) :
    outputEmit pc (s.setReg out0Reg v) = (outputEmit pc s).map (·.setReg out0Reg v) := by
  have h14 : (s.setReg out0Reg v).reg out1Reg = s.reg out1Reg := (reg_setReg _ _ _ _).trans (if_neg (by decide))
  have hlow : lowByte ((s.setReg out0Reg v).reg out0Reg) = lowByte (s.reg out0Reg) := by
    rw [reg_setReg, if_pos rfl, lowByte_eq_of_used h]
  simp only [outputEmit, emitTarget_setReg_of_used h, h14, hlow]
  cases s.emitTarget <;> rfl

end

/-- Settles O14: sampling and emission read only the low byte and bits 15 and 14 of register 13, which the mask keeps. -/
theorem unusedControlBitsChangeNothing : Obligations.UnusedControlBitsChangeNothing := by
  intro pc s v h
  have hemit := outputEmit_setReg_of_used h pc
  refine ⟨inputSample_setReg_of_used h, fun u hu => ?_, fun f hf => ?_⟩
  · rw [hu] at hemit
    exact hemit
  · rw [hf] at hemit
    exact hemit

/-! ### The cycle of any instruction -/

/-- Settles O15: emission of the executed state decides, and a faulted core waits. -/
theorem outOfRangeEmissionDiscardsCycle : Obligations.OutOfRangeEmissionDiscardsCycle := by
  intro i s e f
  refine ⟨fun h => ⟨exec_outOfRange (state_emitTarget_eq_outOfRange.mpr h), step_of_not_running ?_⟩, fun h => ?_⟩
  · simp
  · have hu := completesCycle (i := i) (s := s) fun ht => h (state_emitTarget_eq_outOfRange.mp ht)
    exact ⟨_, hu.answer, hu.status, hu.clock⟩

/-- Settles O18: ops 0 to 9 answer a value in every state, and the others are conditional on their test. -/
theorem writtenExactlyWhenTestHolds : Obligations.WrittenExactlyWhenTestHolds := by
  refine ⟨fun i t h => ?_, fun d a b k t => ⟨?_, ?_, ?_, ?_, ?_, ?_⟩⟩
  · cases i with
    | mov | not | and | or | add | sub | addi | subi | set | seth => rfl
    | inciz | decin | movez | movex | movep | moven => exact absurd h (by simp [Instr.op, opCode])
  · rw [operation, incizValue_eq, Option.isSome_ite]
  · rw [operation, decinValue_eq, Option.isSome_ite]
  · rw [operation, movezValue_eq, Option.isSome_ite]
  · rw [operation, movexValue_eq, Option.isSome_ite]
  · rw [operation, movepValue_eq, Option.isSome_ite]
  · rw [operation, movenValue_eq, Option.isSome_ite]

theorem executed_reg_of_ne {i : Instr} {r : RegIdx} (h : r ≠ i.dest) (s : State) :
    (executed i s).reg r = (inputSample s).reg r :=
  writeBack_reg_of_ne h _ _

theorem executed_of_operation {i : Instr} {s : State} {v : Word} (h : operation i (inputSample s) = some v) :
    executed i s = (inputSample s).setReg i.dest v := by
  rw [executed, h, writeBack_some]

/-- A completed cycle leaves in the destination the value its operation answers, the PC included. -/
theorem CompletesCycle.result {i : Instr} {s u : State} {v : Word} (h : CompletesCycle i s u)
    (hv : operation i (inputSample s) = some v) : u.reg i.dest = v := by
  by_cases hdest : i.dest = pcReg
  · have hpc := h.pc
    rw [if_pos hdest, hv, Option.getD_some] at hpc
    exact hdest ▸ hpc
  · rw [h.registers _ hdest, executed_of_operation hv, reg_setReg, if_pos rfl]

theorem highByte_withLowByte (v : Word) (b : Byte) : highByte (withLowByte v b) = highByte v := by
  have hlow : (b.setWidth 16).extractLsb' 8 8 = 0 := by
    revert b
    decide
  rw [highByte, withLowByte, BitVec.extractLsb'_or, BitVec.extractLsb'_and, hlow, highByte]
  exact BitVec.or_zero.trans BitVec.and_allOnes

theorem highByte_inputSample_reg_inReg (s : State) : highByte ((inputSample s).reg inReg) = highByte (s.reg inReg) := by
  obtain ⟨-, e⟩ | ⟨byte, -, e⟩ := inputSample_cases s
  · rw [e]
  · rw [e, reg_setReg, if_pos rfl, highByte_withLowByte]

/-- Settles O19: execution writes the destination only, the rest of the cycle the PC, and emission one byte. -/
theorem cycleWritesOneRegisterAndOneByte : Obligations.CycleWritesOneRegisterAndOneByte := by
  intro i s hwf hr
  have hu := completesCycle hr
  have hram : Memory.wf s.ram = true := (Bool.and_eq_true_iff.mp hwf).2
  obtain ⟨-, -, heffects⟩ := runCycle_completes rfl hr hram
  refine ⟨_, hu.answer, fun r hdest hpc hin => ?_, fun hdest => ?_, heffects⟩
  · rw [hu.registers r hpc, executed_reg_of_ne hdest, inputSample_reg_of_ne s hin]
  · have hin : inReg ≠ i.dest := hdest.symm
    have hreg : (runCycle i.dest (operation i) s).reg inReg = (inputSample s).reg inReg := by
      rw [hu.registers inReg (by decide), executed_reg_of_ne hin]
    exact ⟨hreg, (congrArg highByte hreg).trans (highByte_inputSample_reg_inReg s)⟩

/-- Settles O40: sampling leaves register 15, which then reads the fetch address. -/
theorem readingPcGivesOwnAddress : Obligations.ReadingPcGivesOwnAddress := by
  intro d a k s
  have hpc : (inputSample s).reg pcReg = s.pc := inputSample_pc s
  refine ⟨fun hr => ?_, fun hr => ?_, fun hne => ?_⟩
  · have hu := completesCycle hr
    exact ⟨_, hu.answer, hu.result (congrArg some hpc)⟩
  · have hu := completesCycle hr
    exact ⟨_, hu.answer, hu.result (congrArg (fun v => some (v + literalOperand k)) hpc)⟩
  · have hnone : operation (.movez d a 15) (inputSample s) = none :=
      (movezValue_eq a pcReg _).trans (if_neg (hpc ▸ hne))
    rw [executed, hnone, writeBack_none]

end Sys2Proof.Machine
end

section
/-! SUPPORT. The cycle boundary, beside a host and without one: the halt, the stop request, the notification and the
start (R37, R137, R138, R204, R213, R214, R216, O9). -/

namespace Sys2Proof.Machine

/-! ### A session with nothing in the way -/

theorem notificationAfter_of_running {u : State} (h : u.status = .running) (n : Notification) :
    notificationAfter u n = .issued := by
  simp only [notificationAfter, h]

theorem notificationAfter_quiet_or_issued (u : State) {n : Notification} (h : n = .quiet ∨ n = .issued) :
    notificationAfter u n = .quiet ∨ notificationAfter u n = .issued := by
  obtain ⟨-, e⟩ | ⟨-, e⟩ := notificationAfter_cases u n
  · exact .inr e
  · rwa [e]

theorem session_step_of_go {m : Session} {u : State} (h : m.decision = .go) (hu : step m.core = .next u) :
    m.step = .next ⟨u, ⟨m.host.stop, notificationAfter u m.host.notification⟩⟩ := by
  simp only [Session.step, h, hu]

theorem session_step_of_stop {m : Session} {reason : StopReason} (h : m.decision = .stop reason) :
    m.step = .next ⟨endRun (.stopped reason) m.core, m.host⟩ := by
  simp only [Session.step, h]

/-- Beside a silent host the session takes the core's step (R138). -/
theorem session_step_silent {s u : State} {n : Notification} (hn : n = .quiet ∨ n = .issued) (hu : step s = .next u) :
    Session.step ⟨s, ⟨false, n⟩⟩ = .next ⟨u, ⟨false, notificationAfter u n⟩⟩ :=
  session_step_of_go ((decision_eq_go _).mpr fun _ => ⟨hn, nofun⟩) hu

/-- A completed cycle of the running core leaves a notification issued. -/
theorem session_step_of_completesCycle {s u : State} {n : Notification} (hn : n = .quiet ∨ n = .issued)
    (hdue : TakesCycle s) (hu : CompletesCycle s.current s u) :
    Session.step ⟨s, ⟨false, n⟩⟩ = .next ⟨u, ⟨false, .issued⟩⟩ := by
  have hrun : u.status = .running := hu.status.trans ((takesCycle_iff s).mp hdue).1
  rw [session_step_silent hn ((step_of_takesCycle hdue).trans hu.answer), notificationAfter_of_running hrun]

/-- Settles O16: the counter is a 64-bit word, and a core that still runs has notified the host. -/
theorem completedCycleIsCounted : Obligations.CompletedCycleIsCounted := by
  intro i s hr
  have hu := completesCycle hr
  refine ⟨_, hu.answer, ?_, hu.status, fun n hn hdue hcurrent => ?_⟩
  · rw [hu.clock, BitVec.toNat_add]
    rfl
  · subst hcurrent
    exact session_step_of_completesCycle hn hdue hu

/-- Settles O22: with a cycle due the step is the fetched instruction, and a silent host lets the core take it. -/
theorem stepRunsDecodedInstruction : Obligations.StepRunsDecodedInstruction := by
  rintro s i hs hp rfl
  have hstep := step_of_cycle ((takesCycle_iff s).mpr ⟨hs, hp⟩)
  exact ⟨hstep, fun n hn u hu => ⟨_, session_step_silent hn (hstep.trans hu)⟩⟩

/-! ### A placed word -/

theorem romRead_sparseWrite {m : Sparse 16} (h : romWf m = true) (a b : Nat) (v : Word) :
    sparseRead (sparseWrite m a v) b = if b = a then v else sparseRead m b := by
  rw [romWf, sparseWf, Bool.and_eq_true] at h
  exact sparseRead_sparseWrite h.1 a b v

/-- The state that `placeWord` stores the word in: its PC is moved off 0xFFFF, and its ROM is the old one. -/
theorem placeWord_eq (s : State) (w : Word) : ∃ t : State, t.pc ≠ haltPc ∧ t.rom = s.rom ∧
    s.placeWord w = { t with rom := sparseWrite t.rom t.pc.toNat w, status := .running } := by
  by_cases hp : s.pc = haltPc
  · refine ⟨s.setReg pcReg entryPc, ?_, setReg_rom _ _ _, ?_⟩
    · rw [State.pc, reg_setReg, if_pos rfl]
      decide
    · rw [State.placeWord, if_pos hp]
  · exact ⟨s, hp, rfl, by rw [State.placeWord, if_neg hp]⟩

theorem takesCycle_placeWord (s : State) (w : Word) : TakesCycle (s.placeWord w) := by
  obtain ⟨t, hp, -, e⟩ := placeWord_eq s w
  rw [e, takesCycle_iff]
  exact ⟨rfl, hp⟩

theorem romRead_placeWord {s : State} (hrom : romWf s.rom = true) (w : Word) :
    romRead (s.placeWord w) (s.placeWord w).pc = w := by
  obtain ⟨t, -, hsame, e⟩ := placeWord_eq s w
  rw [e]
  exact (romRead_sparseWrite (hsame ▸ hrom) _ _ w).trans (if_pos rfl)

/-- Settles O23: the placed word stands at the PC, where a cycle is due. -/
theorem placedWordRunsNext : Obligations.PlacedWordRunsNext := by
  intro s w hwf
  have hrom : romWf s.rom = true := (Bool.and_eq_true_iff.mp hwf).1
  have hw : BitVec.ofNat 16 (w.toNat % 2 ^ 16) = w := by
    rw [Nat.mod_eq_of_lt w.isLt, BitVec.ofNat_toNat, BitVec.setWidth_eq]
  rw [State.withFetchWord, hw, step_of_cycle (takesCycle_placeWord s w), romRead_placeWord hrom]

/-! ### The halt, the stop request, the notification and the start -/

/-- Settles O24: a running core halts at 0xFFFF, and anywhere else its cycle ends running or faulted. -/
theorem haltsExactlyAtHaltPc : Obligations.HaltsExactlyAtHaltPc := by
  intro s hs
  refine ⟨fun hp => ⟨step_of_halt hs hp, step_of_not_running ?_⟩, fun hp u hu hhalted => ?_⟩
  · simp
  · have hne : u.status ≠ s.status := by simp [hhalted, hs]
    obtain ⟨-, ⟨hp', -⟩ | ⟨-, -, rfl⟩⟩ := status_change_of_step hu hne
    · exact hp hp'
    · exact nomatch hhalted

theorem hostMove_stop_of_running {m : Session} (hs : m.core.status = .running) :
    hostMove .stop m = ⟨m.core, ⟨true, m.host.notification⟩⟩ := by
  simp only [hostMove, hs]

theorem hostMove_start_of_ready {m : Session} (hs : m.core.status = .ready) :
    hostMove .start m = ⟨{ m.core with status := .running }, m.host⟩ := by
  simp only [hostMove, startCore, hs]

theorem hostMove_start_of_ne_ready {m : Session} (hs : m.core.status ≠ .ready) : hostMove .start m = m := by
  obtain ⟨h, -⟩ | ⟨-, e⟩ := startCore_cases m.core
  · exact absurd h hs
  · rw [hostMove, e]

/-- A stop that is asked for ends a run with nothing in the way, as a halt at 0xFFFF and as `stopped` elsewhere (R204,
R213). -/
theorem step_hostMove_stop {m : Session} (hs : m.core.status = .running)
    (hn : m.host.notification = .quiet ∨ m.host.notification = .issued) :
    ∃ n, (hostMove .stop m).step = .next n ∧
      n.core = endRun (if m.core.pc = haltPc then .halted else .stopped .hostStop) m.core ∧ n.step = .next n := by
  rw [hostMove_stop_of_running hs]
  by_cases hp : m.core.pc = haltPc
  · rw [if_pos hp]
    refine ⟨_, session_step_of_go ((decision_eq_go _).mpr fun _ => ⟨hn, fun _ => hp⟩) (step_of_halt hs hp), rfl,
      session_step_of_not_running ?_⟩
    simp
  · rw [if_neg hp]
    refine ⟨_, session_step_of_stop ((decision_eq_stop _ .hostStop).mpr ⟨hs, .inr ⟨hn, rfl, hp, rfl⟩⟩), rfl,
      session_step_of_not_running ?_⟩
    simp

/-- Settles O25: a stop of any run with nothing in the way, of which a run just started is one. -/
theorem hostStopEndsRunAtBoundary : Obligations.HostStopEndsRunAtBoundary := by
  refine ⟨fun m hs hn => step_hostMove_stop hs hn, fun s hs hp => ?_⟩
  rw [hostMove_start_of_ready (m := ⟨s, .idle⟩) hs]
  obtain ⟨n, hn, hcore, hfinal⟩ := step_hostMove_stop (m := ⟨{ s with status := .running }, .idle⟩) rfl (.inl rfl)
  exact ⟨n, hn, hcore.trans (congrArg (endRun · _) (if_neg hp)), hfinal⟩

section
variable {m : Session} (hs : m.core.status = .running) (hn : m.host.notification = .issued)
include hs hn

theorem hostMove_notifyFails (err : HostError) : hostMove (.notifyFails err) m = m.withNotification (.failed err) := by
  simp only [hostMove, hs, hn]

theorem hostMove_notifyBlocks : hostMove .notifyBlocks m = m.withNotification .blocked := by
  simp only [hostMove, hs, hn]

theorem hostMove_notifyReturns : hostMove .notifyReturns m = m.withNotification .quiet := by
  simp only [hostMove, hs, hn]

end

/-- Settles O26: the cycle completes and notifies, and the reported error is acted on before the halt test and the
stop. -/
theorem notifyErrorEndsRunAfterCycle : Obligations.NotifyErrorEndsRunAfterCycle := by
  intro s u n stop err hdue hn hr hexec
  have hu := completesCycle hr
  obtain rfl := hu.eq_of_exec hexec
  have hrun := hu.status.trans ((takesCycle_iff s).mp hdue).1
  refine ⟨hu.clock, session_step_of_completesCycle hn hdue hu, ?_⟩
  rw [hostMove_notifyFails hrun rfl]
  refine ⟨_, session_step_of_stop ((decision_eq_stop _ (.notifyError err)).mpr ⟨hrun, .inl ⟨err, rfl, rfl⟩⟩), rfl,
    session_step_of_not_running ?_⟩
  simp

theorem session_step_of_blocked {m : Session} (hs : m.core.status = .running)
    (hn : m.host.notification = .blocked) : m.step = .next m := by
  simp only [Session.step, Session.decision, hs, hn]

/-- Settles O27: a blocked notification holds the running core, and its return forgets that it blocked. -/
theorem blockedNotificationHoldsCore : Obligations.BlockedNotificationHoldsCore := by
  intro m hs hn
  rw [hostMove_notifyBlocks hs hn, hostMove_notifyReturns hs hn]
  refine ⟨session_step_of_blocked hs rfl, rfl, ?_⟩
  simp [hostMove, hs, Session.withNotification]

/-- Settles O28: a ready core waits for its start, which leaves a core that is not ready. -/
theorem startRunsReadyCoreOnce : Obligations.StartRunsReadyCoreOnce := by
  refine ⟨rfl, fun m => ⟨fun hs => ⟨hostMove_start_of_ready hs, session_step_of_not_running ?_⟩, ?_,
    hostMove_start_of_ne_ready⟩⟩
  · simp [hs]
  · apply hostMove_start_of_ne_ready
    rw [hostMove_core_status]
    by_cases hs : m.core.status = .ready <;> simp [hs]

/-! ### Runs beside a silent host -/

theorem core_run_succ {s u : State} (h : step s = .next u) (n : Nat) :
    Host.Core.run Sys2Proof.core (n + 1) s = Host.Core.run Sys2Proof.core n u := by
  have hcore : Sys2Proof.core.step s = .next u := h
  simp only [Host.Core.run, hcore]

/-- Settles O53: by induction on the number of steps, a silent host staying silent. -/
theorem silentHostLeavesRunOfCore : Obligations.SilentHostLeavesRunOfCore := by
  intro n
  induction n with
  | zero =>
    rintro ⟨s, stop, k⟩ rfl hk
    exact ⟨s, k, rfl, hk, rfl⟩
  | succ n ih =>
    rintro ⟨s, stop, k⟩ rfl hk
    obtain ⟨u, hu⟩ := step_answers_next s
    obtain ⟨v, k', hsteps, hk', hrun⟩ :=
      ih ⟨u, ⟨false, notificationAfter u k⟩⟩ rfl (notificationAfter_quiet_or_issued u hk)
    refine ⟨v, k', ?_, hk', (core_run_succ hu n).trans hrun⟩
    rw [Session.steps, session_step_silent hk hu]
    exact hsteps

end Sys2Proof.Machine
end

section
/-! SUPPORT. Runs of several steps: `set` then `seth`, an instruction that jumps to itself, and words that never name
register 15 (R137, R139, R145, R172). -/

namespace Sys2Proof.Machine

/-! ### `set` then `seth` -/

theorem literal8Operand_lowByte (c : Word) : literal8Operand (c.extractLsb' 0 8) = c &&& 0x00FF := by
  apply BitVec.eq_of_toNat_eq
  rw [literal8Operand_toNat, BitVec.extractLsb'_toNat, BitVec.toNat_and]
  exact (Nat.and_two_pow_sub_one_eq_mod c.toNat 8).symm

theorem withHighByte_and_00FF (c : Word) : withHighByte (c &&& 0x00FF) (c.extractLsb' 8 8) = c := by
  have hc : c.toNat < 65536 := c.isLt
  apply BitVec.eq_of_toNat_eq
  rw [withHighByte_toNat, ← literal8Operand_lowByte, literal8Operand_toNat, BitVec.extractLsb'_toNat,
    BitVec.extractLsb'_toNat, Nat.shiftRight_eq_div_pow, Nat.shiftRight_zero]
  omega

/-- A register that the next cycle's sampling leaves: any but 6, and 6 while register 13 has bit 15 set (R60). -/
theorem inputSample_reg_of_kept {s : State} {d : RegIdx} (h : d = inReg → bit15 (s.reg out0Reg) = true) :
    (inputSample s).reg d = s.reg d := by
  by_cases hd : d = inReg
  · rw [inputSample_of_bit15 (h hd)]
  · exact inputSample_reg_of_ne s hd

/-- Settles O41: `set` leaves the low byte, which `seth` reads where its cycle's sampling does not overwrite it. -/
theorem setThenSethBuildsConstant : Obligations.SetThenSethBuildsConstant := by
  intro d c s u hd hset hexec hseth hkept
  have hu := completesCycle hset
  obtain rfl := hu.eq_of_exec hexec
  have hv := completesCycle hseth
  have hlow := hu.result rfl
  have hpcu := hu.pc.trans (if_neg hd)
  have hpcv := hv.pc.trans (if_neg hd)
  rw [literal8Operand_lowByte] at hlow
  refine ⟨_, hv.answer, hlow, hv.result (congrArg some ?_), ?_⟩
  · rw [regOperand, inputSample_reg_of_kept hkept]
    exact (congrArg (withHighByte · _) hlow).trans (withHighByte_and_00FF c)
  · rw [hpcv, hpcu, BitVec.add_assoc]
    rfl

/-! ### An operation reads the registers only -/

theorem operation_congr {t u : State} (h : ∀ r, t.reg r = u.reg r) (i : Instr) : operation i t = operation i u := by
  cases i <;>
    simp only [operation, movValue, notValue, andValue, orValue, addValue, subValue, addiValue, subiValue, setValue,
      sethValue, incizValue, decinValue, movezValue, movexValue, movepValue, movenValue, regOperand, h]

/-! ### Sampling and emitting again -/

theorem withLowByte_withLowByte (v : Word) (b : Byte) : withLowByte (withLowByte v b) b = withLowByte v b := by
  have hb : b.setWidth 16 &&& 0xFF00 = 0 := by
    revert b
    decide
  rw [withLowByte, withLowByte, BitVec.and_or_distrib_right, hb, BitVec.and_assoc, BitVec.and_self]
  exact congrArg (· ||| _) BitVec.or_zero

/-- Sampling a second time the byte that was just sampled changes nothing. -/
theorem inputSample_eq_self {s u : State} (hbyte : sampledByte u = sampledByte s)
    (hreg : u.reg inReg = (inputSample s).reg inReg) : inputSample u = u := by
  cases h : sampledByte s with
  | none => simp only [inputSample, hbyte, h]
  | some byte =>
    rw [inputSample_of_some h, reg_setReg, if_pos rfl] at hreg
    rw [inputSample_of_some (hbyte.trans h), hreg, withLowByte_withLowByte, ← hreg, setReg_reg_self]

theorem ramWrite_ramRead_self {s : State} (hwf : Memory.wf s.ram = true) (a : Word) :
    ramWrite s a (ramRead s a) = s := by
  have hram : (ramWrite s a (ramRead s a)).ram = s.ram := by
    refine sparse_ext (Memory.rising (ramWrite_wf hwf a _)) (Memory.rising hwf) fun b => ?_
    rw [ramWrite, sparseRead_sparseWrite (Memory.rising hwf), ramRead]
    split
    · subst b
      rfl
    · rfl
  exact state_ext_reg (fun _ => rfl) rfl hram rfl rfl rfl

theorem screenWrite_screenRead_self (s : State) (i : Fin 16) : screenWrite s i (screenRead s i) = s := by
  simp [screenWrite, screenRead]

/-- Emitting a byte that is already there changes nothing. -/
theorem outputEmit_eq_self {e : State} (hwf : Memory.wf e.ram = true) (hr : EmitsInRange e)
    (hram : ∀ a, e.emitTarget = .ram a → ramRead e a = lowByte (e.reg out0Reg))
    (hscreen : ∀ i, e.emitTarget = .screen i → screenRead e i = lowByte (e.reg out0Reg)) (pc : Word) :
    outputEmit pc e = .ok e := by
  obtain ⟨h, -⟩ | ⟨-, ⟨-, h⟩ | ⟨a, ht, h⟩ | ⟨i, ht, h⟩⟩ := outputEmit_cases pc e
  · exact absurd h hr
  · exact h
  · rw [h, ← hram a ht, ramWrite_ramRead_self hwf]
  · rw [h, ← hscreen i ht, screenWrite_screenRead_self]

/-! ### A jump to its own address -/

/-- Writing the PC its own address leaves the state as sampling did. -/
theorem executed_of_own_address {i : Instr} {s : State} (hdest : i.dest = pcReg)
    (htarget : operation i (inputSample s) = some s.pc) : executed i s = inputSample s := by
  rw [executed_of_operation htarget, hdest, ← inputSample_pc s, State.pc, setReg_reg_self]

theorem executed_of_jumpsToItself {s : State} (h : JumpsToItself s) : executed s.current s = inputSample s :=
  executed_of_own_address h.dest h.target

/-- Where the same control registers sample, emission is off, so the memories stay as they are and the byte is the same
again. -/
theorem sampledByte_of_completesCycle {i : Instr} {s u : State} (hu : CompletesCycle i s u)
    (h13 : u.reg out0Reg = (executed i s).reg out0Reg) (h14 : u.reg out1Reg = s.reg out1Reg)
    (hsame : (executed i s).reg out0Reg = s.reg out0Reg) : sampledByte u = sampledByte s := by
  by_cases h15 : bit15 (s.reg out0Reg) = true
  · simp only [sampledByte, h13, hsame, if_pos h15]
  · have hoff : (executed i s).emitTarget = .off := emitTarget_of_off (by simpa [hsame] using h15)
    have hram : u.ram = s.ram := hu.ramKept fun a ht => nomatch hoff.symm.trans ht
    have hscreen : ∀ j, screenRead u j = screenRead s j := fun j => by simp [hu.screen j, hoff]
    simp only [sampledByte, h13, hsame, h14, ramRead, hram, hscreen]

section
variable {s u : State} (h : JumpsToItself s) (hu : CompletesCycle s.current s u)
include h hu

/-- The cycle of a jump to itself leaves the registers as its sampling did. -/
theorem reg_of_jumpsToItself (r : RegIdx) : u.reg r = (inputSample s).reg r := by
  by_cases hr : r = pcReg
  · rw [hr, ← h.dest, hu.result h.target, h.dest]
    exact (inputSample_pc s).symm
  · rw [hu.registers r hr, executed_of_jumpsToItself h]

theorem pc_of_jumpsToItself : u.pc = s.pc :=
  (reg_of_jumpsToItself h hu pcReg).trans (inputSample_pc s)

theorem current_of_jumpsToItself : u.current = s.current := by
  rw [State.current, State.current, romRead, romRead, hu.rom, pc_of_jumpsToItself h hu]

theorem emitTarget_of_jumpsToItself : u.emitTarget = (executed s.current s).emitTarget := by
  rw [executed_of_jumpsToItself h, State.emitTarget, State.emitTarget, reg_of_jumpsToItself h hu,
    reg_of_jumpsToItself h hu]

theorem operation_of_jumpsToItself : operation u.current u = some u.pc := by
  rw [current_of_jumpsToItself h hu, operation_congr (reg_of_jumpsToItself h hu), h.target, pc_of_jumpsToItself h hu]

theorem inputSample_of_jumpsToItself : inputSample u = u := by
  have h13 : (inputSample s).reg out0Reg = s.reg out0Reg := inputSample_reg_of_ne s (by decide)
  have h14 : (inputSample s).reg out1Reg = s.reg out1Reg := inputSample_reg_of_ne s (by decide)
  refine inputSample_eq_self (sampledByte_of_completesCycle hu ?_ ?_ ?_) (reg_of_jumpsToItself h hu inReg)
  · rw [executed_of_jumpsToItself h, reg_of_jumpsToItself h hu]
  · rw [reg_of_jumpsToItself h hu, h14]
  · rw [executed_of_jumpsToItself h, h13]

/-- The next cycle is again a jump to itself (R145). -/
theorem jumpsToItself_of_completesCycle : JumpsToItself u := by
  obtain ⟨hs, hp⟩ := (takesCycle_iff s).mp h.due
  have hpc := pc_of_jumpsToItself h hu
  have hdest : u.current.dest = pcReg := current_of_jumpsToItself h hu ▸ h.dest
  have hsampled := inputSample_of_jumpsToItself h hu
  have htarget : operation u.current (inputSample u) = some u.pc := hsampled.symm ▸ operation_of_jumpsToItself h hu
  refine ⟨(takesCycle_iff u).mpr ⟨hu.status.trans hs, hpc ▸ hp⟩, hdest, htarget, ?_⟩
  rw [executed_of_own_address hdest htarget, hsampled, EmitsInRange, emitTarget_of_jumpsToItself h hu]
  exact h.inRange

end

/-- A jump to itself whose sampling and emission only repeat what is there. -/
structure Settled (t : State) : Prop where
  due : TakesCycle t
  dest : t.current.dest = pcReg
  target : operation t.current t = some t.pc
  sampled : inputSample t = t
  emitted : outputEmit t.pc t = .ok t

/-- A settled core only counts (R145). -/
theorem Settled.step {t : State} (h : Settled t) : step t = .next { t with clock := t.clock + 1 } := by
  have hrun : runCycle t.current.dest (operation t.current) t = countCycle t := by
    have hback : t.setReg pcReg t.pc = t := setReg_reg_self t pcReg
    simp [runCycle, h.sampled, h.target, h.dest, hback, h.emitted, pcUpdate]
  rw [step_of_takesCycle h.due, exec_eq_runCycle, hrun, countCycle]

theorem outputEmit_withClock (pc : Word) (e : State) (c : BitVec 64) :
    outputEmit pc { e with clock := c } = (outputEmit pc e).map fun u => { u with clock := c } := by
  have htarget : ({ e with clock := c } : State).emitTarget = e.emitTarget := rfl
  simp only [outputEmit, htarget]
  cases e.emitTarget <;> rfl

theorem Settled.withClock {t : State} (h : Settled t) (c : BitVec 64) : Settled { t with clock := c } := by
  obtain ⟨hdue, hdest, htarget, hsampled, hemitted⟩ := h
  refine ⟨hdue, hdest, ?_, ?_, ?_⟩
  · have hcurrent : ({ t with clock := c } : State).current = t.current := rfl
    have hpc : ({ t with clock := c } : State).pc = t.pc := rfl
    have hreg : ∀ r, ({ t with clock := c } : State).reg r = t.reg r := fun _ => rfl
    rw [hcurrent, hpc, operation_congr hreg, htarget]
  · exact inputSample_eq_self (s := t) rfl (by rw [hsampled]; rfl)
  · exact (outputEmit_withClock t.pc t c).trans (congrArg (Except.map _) hemitted)

theorem add_one_add_ofNat {w : Nat} (c : BitVec w) (n : Nat) :
    c + 1 + BitVec.ofNat w n = c + BitVec.ofNat w (n + 1) := by
  rw [BitVec.ofNat_add, BitVec.add_assoc, BitVec.add_comm 1]
  rfl

theorem run_of_settled {t : State} (h : Settled t) (n : Nat) :
    Host.Core.run Sys2Proof.core n t = .next { t with clock := t.clock + BitVec.ofNat 64 n } := by
  induction n generalizing t with
  | zero =>
    rw [show t.clock + BitVec.ofNat 64 0 = t.clock from BitVec.add_zero _]
    rfl
  | succ n ih => rw [core_run_succ h.step, ih (h.withClock _), add_one_add_ofNat]

/-- After one cycle a jump to itself is settled: what it samples and emits is there already. -/
theorem settled_of_jumpsToItself {s u : State} (h : JumpsToItself s) (hu : CompletesCycle s.current s u)
    (hwf : s.wf = true) : Settled u := by
  obtain ⟨hdue, hdest, -, -⟩ := jumpsToItself_of_completesCycle h hu
  have htarget := emitTarget_of_jumpsToItself h hu
  have hlow : lowByte ((executed s.current s).reg out0Reg) = lowByte (u.reg out0Reg) := by
    rw [executed_of_jumpsToItself h, reg_of_jumpsToItself h hu]
  have hram : Memory.wf s.ram = true := (Bool.and_eq_true_iff.mp hwf).2
  have hram' : Memory.wf u.ram = true := (Bool.and_eq_true_iff.mp (hu.wf hwf)).2
  refine ⟨hdue, hdest, operation_of_jumpsToItself h hu, inputSample_of_jumpsToItself h hu,
    outputEmit_eq_self hram' (fun hout => h.inRange (htarget.symm.trans hout)) (fun a ha => ?_) (fun j hj => ?_) u.pc⟩
  · have hread := (ramRead_ramWrite hram a a (lowByte ((executed s.current s).reg out0Reg))).trans (if_pos rfl)
    rw [← hlow, ← hread, ramRead, ramRead, hu.ramWritten a (htarget.symm.trans ha)]
  · rw [hu.screen j, if_pos (htarget.symm.trans hj), hlow]

/-- Settles O42: one cycle settles the jump, and a settled core only counts. -/
theorem jumpToOwnAddressNeverHalts : Obligations.JumpToOwnAddressNeverHalts := by
  intro s h
  have hu := completesCycle h.inRange
  exact ⟨_, (step_of_takesCycle h.due).trans hu.answer, jumpsToItself_of_completesCycle h hu,
    current_of_jumpsToItself h hu, pc_of_jumpsToItself h hu, hu.clock,
    fun r hr => (reg_of_jumpsToItself h hu r).trans (inputSample_reg_of_ne s hr), hu.rom,
    fun hwf => run_of_settled (settled_of_jumpsToItself h hu hwf)⟩

/-! ### A straight line -/

/-- `n` cycles in a row from `s` have led to `u`, each to the next address. -/
structure Advanced (n : Nat) (s u : State) : Prop where
  run : Host.Core.run Sys2Proof.core n s = .next u
  status : u.status = .running
  pc : u.pc = s.pc + BitVec.ofNat 16 n
  clock : u.clock = s.clock + BitVec.ofNat 64 n
  rom : u.rom = s.rom

theorem run_add {k : Nat} {s v : State} (h : Host.Core.run Sys2Proof.core k s = .next v) (n : Nat) :
    Host.Core.run Sys2Proof.core (k + n) s = Host.Core.run Sys2Proof.core n v := by
  induction k generalizing s with
  | zero =>
    obtain rfl : s = v := Host.Outcome.next.inj h
    rw [Nat.zero_add]
  | succ k ih =>
    obtain ⟨u, hu⟩ := step_answers_next s
    rw [Nat.add_right_comm, core_run_succ hu]
    exact ih ((core_run_succ hu k).symm.trans h)

theorem run_of_not_running {s : State} (h : s.status ≠ .running) (n : Nat) :
    Host.Core.run Sys2Proof.core n s = .next s := by
  induction n with
  | zero => rfl
  | succ n ih => rw [core_run_succ (step_of_not_running h), ih]

theorem add_ofNat_add_one {w : Nat} (c : BitVec w) (n : Nat) :
    c + BitVec.ofNat w n + 1 = c + BitVec.ofNat w (n + 1) := by
  rw [← add_one_add_ofNat, BitVec.add_assoc, BitVec.add_assoc, BitVec.add_comm 1]

theorem Advanced.refl {s : State} (hs : s.status = .running) : Advanced 0 s s :=
  ⟨rfl, hs, (BitVec.add_zero _).symm, (BitVec.add_zero _).symm, rfl⟩

/-- One more cycle, of an instruction whose destination is not register 15. -/
theorem Advanced.succ {n : Nat} {s u v : State} (h : Advanced n s u) (hdue : TakesCycle u)
    (hv : CompletesCycle u.current u v) (hdest : u.current.dest ≠ pcReg) : Advanced (n + 1) s v := by
  have hpc := hv.pc.trans (if_neg hdest)
  refine ⟨?_, hv.status.trans h.status, ?_, ?_, hv.rom.trans h.rom⟩
  · rw [run_add h.run, core_run_succ ((step_of_takesCycle hdue).trans hv.answer)]
    rfl
  · rw [hpc, h.pc, add_ofNat_add_one]
  · rw [hv.clock, h.clock, add_ofNat_add_one]

theorem Advanced.pc_toNat {n : Nat} {s u : State} (h : Advanced n s u) (hn : s.pc.toNat + n ≤ 65535) :
    u.pc.toNat = s.pc.toNat + n := by
  rw [h.pc, BitVec.toNat_add, BitVec.toNat_ofNat, Nat.add_mod_mod, Nat.mod_eq_of_lt (by omega)]

theorem Advanced.takesCycle {n : Nat} {s u : State} (h : Advanced n s u) (hn : s.pc.toNat + n < 65535) :
    TakesCycle u := by
  refine (takesCycle_iff u).mpr ⟨h.status, fun hp => ?_⟩
  have hlast : haltPc.toNat = 65535 := rfl
  have hpc := h.pc_toNat (Nat.le_of_lt hn)
  rw [hp, hlast] at hpc
  omega

/-- Over words that do not name register 15 every cycle advances, up to the first one whose emission is out of range. -/
theorem advanced_or_outOfRange {s : State} (hs : s.status = .running) {n : Nat} (hn : s.pc.toNat + n ≤ 65535)
    (hdest : ∀ k, k < n → (decodeWord (romRead s (s.pc + BitVec.ofNat 16 k))).dest ≠ pcReg) :
    (∃ u, Advanced n s u) ∨
      ∃ k v, k < n ∧ Advanced k s v ∧ TakesCycle v ∧ (executed v.current v).emitTarget = .outOfRange := by
  induction n with
  | zero => exact .inl ⟨s, .refl hs⟩
  | succ n ih =>
    obtain ⟨u, hu⟩ | ⟨k, v, hk, hv⟩ := ih (by omega) fun k hk => hdest k (by omega)
    · have hdue := hu.takesCycle (by omega)
      have hcurrent : u.current = decodeWord (romRead s (s.pc + BitVec.ofNat 16 n)) := by
        rw [State.current, romRead, romRead, hu.pc, hu.rom]
      obtain ⟨ht, -⟩ | ⟨v, -, hv⟩ := exec_cases u.current u
      · exact .inr ⟨n, u, by omega, hu, hdue, ht⟩
      · exact .inl ⟨v, hu.succ hdue hv (hcurrent ▸ hdest n (by omega))⟩
    · exact .inr ⟨k, v, by omega, hv⟩

/-- Settles O43: the run advances, or up to a faulting cycle, after which the core waits. -/
theorem straightLineRunAdvances : Obligations.StraightLineRunAdvances := by
  intro n s hdue hn hdest
  obtain ⟨hs, -⟩ := (takesCycle_iff s).mp hdue
  obtain ⟨u, hu⟩ | ⟨k, v, hk, hv, hdue', ht⟩ := advanced_or_outOfRange hs hn hdest
  · exact ⟨u, hu.run, .inl ⟨hu.status, hu.pc_toNat hn, hu.clock, step_of_halt hu.status⟩⟩
  · obtain ⟨m, rfl⟩ : ∃ m, n = k + (m + 1) := ⟨n - k - 1, by omega⟩
    have hfault := (step_of_takesCycle hdue').trans (exec_outOfRange ht)
    refine ⟨_, ?_, .inr ⟨k, v, hk, hv.run, hdue', hv.pc_toNat (by omega), hv.clock, ht, rfl⟩⟩
    rw [run_add hv.run, core_run_succ hfault]
    exact run_of_not_running (by simp) m

end Sys2Proof.Machine
end

section
/-! SUPPORT. The load of a record stream (R233 to R240), the I8HEX text read back (R110, R241), and an assembled image. -/

namespace Sys2Proof.Machine

/-! ### Good records -/

/-- A record that the load reads on from: not an end of file, and of two bytes below address 65 535 if it is data (R235,
R237). -/
def Record.isGood (r : Record) : Prop :=
  r.type ≠ .endOfFile ∧ (r.type = .data → r.data.length = 2 ∧ r.address.toNat < romWords)

/-- The word of a data record, `(data[0] << 8) | data[1]` (R235). -/
def Record.word (r : Record) : Word := wordOfBytes (r.data.getD 0 0) (r.data.getD 1 0)

/-- What a good record does to the ROM: a data record stores its word, any other is skipped (R235, R237). -/
def storeRecord (rom : Sparse 16) (r : Record) : Sparse 16 :=
  if r.type = .data then sparseWrite rom r.address.toNat r.word else rom

theorem recordWord_of_length_two {r : Record} (h : r.data.length = 2) :
    recordWord r = if r.address.toNat < romWords then .ok r.word else .error .addressOutOfRange := by
  obtain ⟨b0, b1, hdata⟩ := List.length_eq_two.mp h
  simp [recordWord, Record.word, hdata]

theorem recordWord_of_length_ne_two {r : Record} (h : r.data.length ≠ 2) :
    recordWord r = .error .malformedRecordSize := by
  unfold recordWord
  split
  next hdata => exact absurd (by simp [hdata]) h
  next => rfl

section
variable {n : Nat} {rom : Sparse 16} {r : Record} {rest : List (Except StreamError Record)}

theorem loadFrom_cons_data_error {e : LoadErrorKind} (ht : r.type = .data) (h : recordWord r = .error e) :
    loadFrom n rom (.ok r :: rest) = .error ⟨e, n⟩ := by
  simp only [loadFrom, ht, h]

theorem loadFrom_cons_endOfFile (ht : r.type = .endOfFile) : loadFrom n rom (.ok r :: rest) = .ok rom := by
  simp only [loadFrom, ht]

theorem loadFrom_cons_good (h : r.isGood) :
    loadFrom n rom (.ok r :: rest) = loadFrom (n + 1) (storeRecord rom r) rest := by
  obtain ⟨heof, hdata⟩ := h
  cases ht : r.type with
  | data =>
    obtain ⟨hlength, haddress⟩ := hdata ht
    simp [loadFrom, ht, recordWord_of_length_two hlength, haddress, storeRecord]
  | endOfFile => exact absurd ht heof
  | other code => simp [loadFrom, ht, storeRecord]

end

/-- Good records only store their words and count. -/
theorem loadFrom_append_good {records : List Record} (h : ∀ r ∈ records, r.isGood) (n : Nat) (rom : Sparse 16)
    (rest : List (Except StreamError Record)) :
    loadFrom n rom (records.map Except.ok ++ rest) =
      loadFrom (n + records.length) (records.foldl storeRecord rom) rest := by
  induction records generalizing n rom with
  | nil => rfl
  | cons r records ih =>
    obtain ⟨hr, hrecords⟩ := List.forall_mem_cons.mp h
    rw [List.map_cons, List.cons_append, loadFrom_cons_good hr, ih hrecords, List.foldl_cons, List.length_cons,
      Nat.add_right_comm, Nat.add_assoc]

/-! ### The loaded ROM -/

theorem romWf_storeRecord {rom : Sparse 16} {r : Record} (hrom : romWf rom = true) (h : r.isGood) :
    romWf (storeRecord rom r) = true := by
  unfold storeRecord
  split
  next ht => exact romWf_sparseWrite hrom (h.2 ht).2 _
  next => exact hrom

theorem romWf_foldl_storeRecord {records : List Record} (h : ∀ r ∈ records, r.isGood) :
    romWf (records.foldl storeRecord []) = true := by
  induction records using List.reverseRecOn with
  | nil => rfl
  | append_singleton records r ih =>
    rw [List.foldl_append]
    exact romWf_storeRecord (ih fun q hq => h q (by simp [hq])) (h r (by simp))

/-- The last record that stores at an address decides its word (R233, R240). -/
theorem sparseRead_foldl_storeRecord {records : List Record} (h : ∀ r ∈ records, r.isGood) (a : Word) :
    sparseRead (records.foldl storeRecord []) a.toNat =
      ((records.filter fun r => decide (r.type = .data ∧ r.address = a)).getLast?.map Record.word).getD 0 := by
  induction records using List.reverseRecOn with
  | nil => rfl
  | append_singleton records r ih =>
    have hrecords : ∀ q ∈ records, q.isGood := fun q hq => h q (by simp [hq])
    rw [List.foldl_append, List.filter_append]
    by_cases hr : r.type = .data ∧ r.address = a
    · obtain ⟨ht, rfl⟩ := hr
      simp [storeRecord, ht, romRead_sparseWrite (romWf_foldl_storeRecord hrecords)]
    · rw [List.filter_cons_of_neg (by simpa using hr), List.filter_nil, List.append_nil, ← ih hrecords, List.foldl_cons,
        List.foldl_nil, storeRecord]
      split
      next ht =>
        have hne : a.toNat ≠ r.address.toNat := fun e => hr ⟨ht, (BitVec.eq_of_toNat_eq e).symm⟩
        rw [romRead_sparseWrite (romWf_foldl_storeRecord hrecords), if_neg hne]
      next => rfl

/-- Settles O44: the good records are folded into a canonical ROM, which the end-of-file record ends. -/
theorem loadedRomHoldsLastRecord : Obligations.LoadedRomHoldsLastRecord := by
  intro records eof rest hgood heof
  refine ⟨_, (loadFrom_append_good hgood 1 [] _).trans (loadFrom_cons_endOfFile heof), romWf_foldl_storeRecord hgood,
    fun a => ?_⟩
  rw [sparseRead_foldl_storeRecord hgood]
  split
  next r hlast =>
    rw [hlast]
    rfl
  next hnone =>
    rw [hnone]
    rfl

theorem boot_of_load_error {stream : List (Except StreamError Record)} {e : LoadError} (h : loadRom stream = .error e) :
    boot stream = .error e := by
  simp only [boot, h]

/-- An error after good records has the number one past them, and gives no core (R238). -/
theorem boot_append_good {records : List Record} (h : ∀ r ∈ records, r.isGood) {kind : LoadErrorKind}
    {rest : List (Except StreamError Record)} (hrest : ∀ n rom, loadFrom n rom rest = .error ⟨kind, n⟩) :
    boot (records.map Except.ok ++ rest) = .error ⟨kind, records.length + 1⟩ := by
  apply boot_of_load_error
  rw [loadRom, loadFrom_append_good h, hrest, Nat.add_comm]

/-- Settles O45: the good records only count, and the record or the end after them is the error. -/
theorem loadStopsAtFirstError : Obligations.LoadStopsAtFirstError := by
  intro records bad e rest hgood
  refine ⟨fun ht hlength => ?_, fun ht hlength haddress => ?_, ?_, ?_⟩
  · exact boot_append_good hgood fun n rom => loadFrom_cons_data_error ht (recordWord_of_length_ne_two hlength)
  · exact boot_append_good hgood fun n rom => loadFrom_cons_data_error ht
      ((recordWord_of_length_two hlength).trans (if_neg haddress.not_gt))
  · exact boot_append_good hgood fun n rom => rfl
  · have hend := boot_append_good hgood (rest := []) fun n rom => rfl
    rwa [List.append_nil] at hend

/-! ### Hexadecimal digits -/

theorem hexDigitValue_hexDigit (n : Nibble) : hexDigitValue (hexDigit n) = some n.toNat := by
  revert n
  decide

theorem ofNat_nibbles (b : Byte) :
    BitVec.ofNat 8 ((b.extractLsb' 4 4).toNat * 16 + (b.extractLsb' 0 4).toNat) = b := by
  revert b
  decide

/-- The digits of bytes read back as the bytes. -/
theorem readHexBytes_flatMap_hexByte (bytes : List Byte) : readHexBytes (bytes.flatMap hexByte) = .ok bytes := by
  induction bytes with
  | nil => rfl
  | cons b bytes ih =>
    simp only [List.flatMap_cons, hexByte, List.cons_append, List.nil_append, readHexBytes, hexDigitValue_hexDigit, ih,
      ofNat_nibbles]

theorem hexDigit_ne_newline (n : Nibble) : hexDigit n ≠ '\n' := by
  revert n
  decide

theorem newline_notMem_writeRecord (r : Record) : '\n' ∉ writeRecord r := by
  simp [writeRecord, hexByte, (hexDigit_ne_newline _).symm]

/-! ### A record and its bytes -/

theorem wordOfBytes_extractLsb' (w : Word) : wordOfBytes (w.extractLsb' 8 8) (w.extractLsb' 0 8) = w := by
  have hw : w.toNat < 65536 := w.isLt
  apply BitVec.eq_of_toNat_eq
  rw [wordOfBytes_toNat, BitVec.extractLsb'_toNat, BitVec.extractLsb'_toNat, Nat.shiftRight_eq_div_pow,
    Nat.shiftRight_zero]
  omega

/-- The checksum makes the sum of all bytes 0 (R241). -/
theorem byteSum_append_checksum (bytes : List Byte) : byteSum (bytes ++ [checksum bytes]) = 0 := by
  rw [byteSum, List.foldl_append]
  exact BitVec.add_right_neg _

theorem recordType_typeCode {type : RecordType} (h : ∀ code, type = .other code → code ≠ 0 ∧ code ≠ 1) :
    recordType (typeCode type) = type := by
  cases type with
  | data => rfl
  | endOfFile => rfl
  | other code =>
    obtain ⟨h0, h1⟩ := h code rfl
    rw [typeCode, recordType, if_neg h0, if_neg h1]

section
variable {r : Record} (hlength : r.data.length < 256) (htype : ∀ code, r.type = .other code → code ≠ 0 ∧ code ≠ 1)
include hlength htype

theorem recordOfBytes_recordBody : recordOfBytes (recordBody r ++ [checksum (recordBody r)]) = .ok r := by
  have hll : (BitVec.ofNat 8 r.data.length).toNat = r.data.length :=
    (BitVec.toNat_ofNat _ _).trans (Nat.mod_eq_of_lt hlength)
  have hsum := byteSum_append_checksum (recordBody r)
  generalize hcc : checksum (recordBody r) = cc at hsum ⊢
  simp only [recordBody, bytesOfWord, List.cons_append, List.nil_append] at hsum ⊢
  simp [recordOfBytes, hll, hsum, recordType_typeCode htype, wordOfBytes_extractLsb']

/-- A record's line reads back as the record (R241). -/
theorem readRecord_writeRecord : readRecord (writeRecord r) = .ok r := by
  simp only [readRecord, writeRecord, readHexBytes_flatMap_hexByte, recordOfBytes_recordBody hlength htype]

end

/-! ### The lines of a text -/

theorem splitLinesFrom_line {line : List Char} (h : '\n' ∉ line) (soFar rest : List Char) :
    splitLinesFrom soFar (line ++ '\n' :: rest) = (soFar.reverse ++ line) :: splitLinesFrom [] rest := by
  induction line generalizing soFar with
  | nil => simp [splitLinesFrom]
  | cons c line ih =>
    obtain ⟨hc, hline⟩ := not_or.mp (List.mem_cons.not.mp h)
    simp [splitLinesFrom, Ne.symm hc, ih hline]

theorem splitLines_writeImage (records : List Record) : splitLines (writeImage records) = records.map writeRecord := by
  induction records with
  | nil => rfl
  | cons r records ih =>
    rw [splitLines, writeImage, List.flatMap_cons, List.append_assoc]
    exact (splitLinesFrom_line (newline_notMem_writeRecord r) [] _).trans (congrArg _ ih)

/-- Settles O46: no line holds a newline, so the text splits into the records' lines, and each reads back. -/
theorem imageTextReadsBack : Obligations.ImageTextReadsBack := by
  intro records h
  rw [readImage, splitLines_writeImage, List.map_map]
  refine List.map_congr_left fun r hr => ?_
  obtain ⟨hlength, htype⟩ := h r hr
  rw [Function.comp_apply, readRecord_writeRecord hlength htype]

/-! ### An assembled image -/

/-- The ROM with words stored from address `k` on. -/
def storeWords (k : Nat) (rom : Sparse 16) : List Word → Sparse 16
  | [] => rom
  | w :: rest => storeWords (k + 1) (sparseWrite rom k w) rest

/-- Each record of an assembled image can be written in the record form. -/
theorem recordsFrom_writable (words : List Word) (k : Nat) : ∀ r ∈ recordsFrom k words,
    r.data.length < 256 ∧ ∀ code, r.type = .other code → code ≠ 0 ∧ code ≠ 1 := by
  induction words generalizing k with
  | nil => simp [recordsFrom]
  | cons w rest ih =>
    rw [recordsFrom, List.forall_mem_cons]
    exact ⟨by simp [bytesOfWord], ih (k + 1)⟩

theorem loadFrom_recordsFrom {words : List Word} {k : Nat} (h : k + words.length ≤ romWords) (n : Nat)
    (rom : Sparse 16) : loadFrom n rom ((recordsFrom k words).map Except.ok) = .ok (storeWords k rom words) := by
  induction words generalizing k n rom with
  | nil => rfl
  | cons w rest ih =>
    rw [List.length_cons] at h
    have hk : k < romWords := by omega
    have haddress : (BitVec.ofNat 16 k).toNat = k :=
      (BitVec.toNat_ofNat _ _).trans (Nat.mod_eq_of_lt (hk.trans (by decide)))
    have hgood : Record.isGood ⟨.data, BitVec.ofNat 16 k, bytesOfWord w⟩ :=
      ⟨nofun, fun _ => ⟨rfl, haddress.symm ▸ hk⟩⟩
    have hstore : storeRecord rom ⟨.data, BitVec.ofNat 16 k, bytesOfWord w⟩ = sparseWrite rom k w := by
      rw [storeRecord, if_pos rfl, haddress]
      exact congrArg _ (wordOfBytes_extractLsb' w)
    rw [recordsFrom, List.map_cons, loadFrom_cons_good hgood, hstore, ih (by omega), storeWords]

/-- Stored words read back in order, and the other addresses are as before. -/
theorem sparseRead_storeWords {words : List Word} {k : Nat} {rom : Sparse 16} (hrom : romWf rom = true)
    (h : k + words.length ≤ romWords) (a : Nat) : sparseRead (storeWords k rom words) a =
      if k ≤ a then words.getD (a - k) (sparseRead rom a) else sparseRead rom a := by
  induction words generalizing k rom with
  | nil => exact (ite_self _).symm
  | cons w rest ih =>
    rw [List.length_cons] at h
    rw [storeWords, ih (romWf_sparseWrite hrom (by omega) w) (by omega), romRead_sparseWrite hrom]
    obtain hlt | rfl | hgt := Nat.lt_trichotomy a k
    · rw [if_neg (by omega), if_neg (by omega), if_neg (by omega)]
    · rw [if_neg (by omega), if_pos rfl, if_pos (Nat.le_refl a), Nat.sub_self, List.getD_cons_zero]
    · have hsub : a - k = a - (k + 1) + 1 := by omega
      rw [if_pos (by omega), if_neg (by omega), if_pos (by omega), hsub, List.getD_cons_succ]

/-- Settles O47: the image reads back as its records, which store word `k` at address `k` of an empty ROM. -/
theorem assembledFileLoadsInOrder : Obligations.AssembledFileLoadsInOrder := by
  intro words hwords
  have hlength : 0 + words.length ≤ romWords := (Nat.zero_add _).symm ▸ hwords
  have hboot : boot (readImage (writeImage (recordsFrom 0 words))) = .ok (bootState (storeWords 0 [] words)) := by
    rw [imageTextReadsBack _ (recordsFrom_writable words 0)]
    simp only [boot, loadRom, loadFrom_recordsFrom hlength]
  refine ⟨_, hboot, bootState_reg _ _, rfl, fun a => ?_⟩
  rw [romRead_bootState, sparseRead_storeWords rfl hlength, if_pos (Nat.zero_le _)]
  rfl

end Sys2Proof.Machine
end
